-- ==== Sys2Proof/Word.lean ====
section
/-! DEFINITION. The word types of the core: every width the spec gives a value (R5, R12, R61). -/

namespace Sys2Proof

/-- A data byte: register contents, memory bytes, timers, the immediate NN (R5, R61). -/
abbrev Byte := BitVec 8

/-- A 16-bit word: the instruction word, `I`, `pc`, a return address, the key input (R5, R10, R23, R24). -/
abbrev Word := BitVec 16

/-- A 4-bit field of the instruction word: op, X, Y, N; as X or Y it is the number of a general register (R61, R63). -/
abbrev Nibble := BitVec 4

/-- The 12-bit address immediate NNN (R61, R63). -/
abbrev Addr := BitVec 12

end Sys2Proof
end

