-- ==== Sys2Proof/Config.lean ====
section
/-! DEFINITION. What an implementation fixes (R5, R6), what reset is given (R7, R8, R10, R230), and the free values the
spec leaves open: what the host does, and with which inputs (R9, R10, R186, R245). -/

namespace Sys2Proof

namespace Config

/-- 4096 bytes of memory, addresses 0x000 to 0xFFF (R5). -/
def memSize : Nat := 4096

/-- The highest memory address, 0xFFF (R5). -/
def maxAddr : Nat := 0xFFF

/-- `FONT_BASE` (R5). -/
def fontBase : Nat := 0x050

/-- The length of the font region (R5). -/
def fontLen : Nat := 80

/-- Bytes per glyph of the font region (R5). -/
def glyphBytes : Nat := 5

/-- `PROG_BASE`, also the reset value of `pc` (R5, R24). -/
def progBase : Nat := 0x200

/-- `PROG_MAX`, the largest program (R5). -/
def progMax : Nat := 3584

/-- `STACK_DEPTH` (R6). -/
def stackDepth : Nat := 16

/-- `DISPLAY_W` (R6). -/
def displayW : Nat := 64

/-- `DISPLAY_H` (R6). -/
def displayH : Nat := 32

/-- What a memory byte nothing has written reads as: the spec's recommended `MEM_INIT`, 0x00 (R8, R233).
DESIGN CHOICE, unsafe: log 4. -/
def memBlank : Byte := 0x00#8

end Config

/-- The compatibility-quirk configuration `q`, written by reset only (R7, R29). -/
structure Quirks where
  legacyShift : Bool
  legacyJump : Bool
  autoIncrementIndex : Bool
  deriving DecidableEq, Repr

/-- `q` as the 3-bit control register of R29: bit 0 `legacy_shift`, bit 1 `legacy_jump`, bit 2 `auto_increment_index`. -/
def Quirks.bits (q : Quirks) : BitVec 3 :=
  BitVec.ofBool q.autoIncrementIndex ++ BitVec.ofBool q.legacyJump ++ BitVec.ofBool q.legacyShift

/-- `DRAW_EDGE`: what the draw instruction does with pixels past the right or bottom edge (R8, R171). -/
inductive DrawEdge where
  | clip
  | wrap
  deriving DecidableEq, Repr

/-- The arguments of the host's reset (R10, R230). The font's length is part of its type (R232). `memInit` is `MEM_INIT`:
the bytes it lists, every other byte `Config.memBlank` (R8, log 4). -/
structure ResetArgs where
  font : Vector Byte Config.fontLen
  program : List Byte
  quirks : Quirks
  memInit : List (Nat × Byte)
  deriving DecidableEq, Repr

/-- One action of the host on the core (R9). -/
inductive HostAction where
  /-- `step(keys, rand)`: one instruction cycle (R80) -/
  | step (keys : Word) (rand : Byte)
  /-- `tick()`: the timer tick (R214) -/
  | tick
  /-- `reset(font, program, quirks)` (R230) -/
  | reset (args : ResetArgs)
  deriving DecidableEq, Repr, Inhabited

/-- The n-th action of the host that State does not list: a free value, so the actions after the listed ones are any
sequence without end of instruction cycles, with any inputs, of ticks and of resets (R9, R10, R92, R186, R245).
DESIGN CHOICE, safe: log 2. -/
opaque Config.freeAction : Nat → HostAction

end Sys2Proof
end

