-- ==== Sys2Proof/Syntax.lean ====
section
/-! DEFINITION. The instructions: one constructor for each of the 35 rows of the opcode map (R66), its operands the
fields the row's format uses (R61, R62). A nibble the decoder ignores (R64) is no operand. -/

namespace Sys2Proof

/-- The 35 instructions, in the order of R66. A register operand is its 4-bit number; every number names a register (R21). -/
inductive Instr where
  /-- row 1, `0-00` HALT (R100) -/
  | halt
  /-- row 2, `0-E0` CLS (R170) -/
  | cls
  /-- row 3, `0-EE` RET (R101) -/
  | ret
  /-- row 4, `1NNN` JP NNN (R102) -/
  | jp (nnn : Addr)
  /-- row 5, `2NNN` CALL NNN (R103) -/
  | call (nnn : Addr)
  /-- row 6, `3XNN` SE Vx, NN (R110) -/
  | seImm (x : Nibble) (nn : Byte)
  /-- row 7, `4XNN` SNE Vx, NN (R111) -/
  | sneImm (x : Nibble) (nn : Byte)
  /-- row 8, `5XY-` SE Vx, Vy (R112) -/
  | seReg (x y : Nibble)
  /-- row 9, `9XY-` SNE Vx, Vy (R113) -/
  | sneReg (x y : Nibble)
  /-- row 10, `6XNN` LD Vx, NN (R120) -/
  | ldImm (x : Nibble) (nn : Byte)
  /-- row 11, `7XNN` ADD Vx, NN (R121) -/
  | addImm (x : Nibble) (nn : Byte)
  /-- row 12, `8XY0` LD Vx, Vy (R130) -/
  | ldReg (x y : Nibble)
  /-- row 13, `8XY1` OR Vx, Vy (R131) -/
  | orReg (x y : Nibble)
  /-- row 14, `8XY2` AND Vx, Vy (R132) -/
  | andReg (x y : Nibble)
  /-- row 15, `8XY3` XOR Vx, Vy (R133) -/
  | xorReg (x y : Nibble)
  /-- row 16, `8XY4` ADD Vx, Vy (R134) -/
  | addReg (x y : Nibble)
  /-- row 17, `8XY5` SUB Vx, Vy (R135) -/
  | subReg (x y : Nibble)
  /-- row 18, `8XY7` SUBN Vx, Vy (R137) -/
  | subnReg (x y : Nibble)
  /-- row 19, `8XY6` SHR Vx, Vy (R136) -/
  | shrReg (x y : Nibble)
  /-- row 20, `8XYE` SHL Vx, Vy (R138) -/
  | shlReg (x y : Nibble)
  /-- row 21, `ANNN` LD I, NNN (R150) -/
  | ldI (nnn : Addr)
  /-- row 22, `BNNN` JP V0, NNN (R104); its X is the top nibble of NNN -/
  | jpV0 (nnn : Addr)
  /-- row 23, `CXNN` RND Vx, NN (R186) -/
  | rnd (x : Nibble) (nn : Byte)
  /-- row 24, `DXYN` DRW Vx, Vy, N (R171) -/
  | drw (x y n : Nibble)
  /-- row 25, `EX9E` SKP Vx (R180) -/
  | skp (x : Nibble)
  /-- row 26, `EXA1` SKNP Vx (R181) -/
  | sknp (x : Nibble)
  /-- row 27, `FX07` LD Vx, DT (R183) -/
  | ldVxDt (x : Nibble)
  /-- row 28, `FX15` LD DT, Vx (R184) -/
  | ldDtVx (x : Nibble)
  /-- row 29, `FX18` LD ST, Vx (R185) -/
  | ldStVx (x : Nibble)
  /-- row 30, `FX1E` ADD I, Vx (R151) -/
  | addI (x : Nibble)
  /-- row 31, `FX0A` LD Vx, K (R182) -/
  | ldVxK (x : Nibble)
  /-- row 32, `FX29` LD F, Vx (R152) -/
  | ldF (x : Nibble)
  /-- row 33, `FX33` BCD Vx (R153) -/
  | bcd (x : Nibble)
  /-- row 34, `FX55` LD [I], Vx (R154) -/
  | storeRegs (x : Nibble)
  /-- row 35, `FX65` LD Vx, [I] (R155) -/
  | loadRegs (x : Nibble)
  deriving DecidableEq, Repr

end Sys2Proof
end

