-- ==== Sys2Proof/WellFormed.lean ====
section
/-! DEFINITION. What the types of the syntax and of the host's arguments do not already say. -/

namespace Sys2Proof

/-- An instruction is well formed when each operand fits its field. The operand types are the fields of R61 (4, 8 and 12
bits), every value of a field is legal (R21, R63) and no instruction relates two fields, so the types say it all: the check
is by constructor and always passes. -/
def Instr.wellFormed (i : Instr) : Bool :=
  match i with
  | .halt | .cls | .ret => true
  | .jp _ | .call _ | .ldI _ | .jpV0 _ => true
  | .seImm _ _ | .sneImm _ _ | .ldImm _ _ | .addImm _ _ | .rnd _ _ => true
  | .seReg _ _ | .sneReg _ _ | .ldReg _ _ | .orReg _ _ | .andReg _ _ | .xorReg _ _ => true
  | .addReg _ _ | .subReg _ _ | .subnReg _ _ | .shrReg _ _ | .shlReg _ _ => true
  | .drw _ _ _ => true
  | .skp _ | .sknp _ | .ldVxDt _ | .ldDtVx _ | .ldStVx _ | .addI _ | .ldVxK _ => true
  | .ldF _ | .bcd _ | .storeRegs _ | .loadRegs _ => true

/-- A program fits memory after PROG_BASE: at most PROG_MAX bytes (R202, R231). -/
def ResetArgs.programFits (a : ResetArgs) : Bool := decide (a.program.length ≤ Config.progMax)

/-- Every byte `MEM_INIT` lists has an address the memory has (R8, R40). -/
def ResetArgs.memInitInRange (a : ResetArgs) : Bool := a.memInit.all fun c => decide (c.1 < Config.memSize)

/-- The arguments a reset succeeds with, listing no byte outside the memory. -/
def ResetArgs.wellFormed (a : ResetArgs) : Bool := a.programFits && a.memInitInRange

end Sys2Proof
end

