-- ==== Sys2Proof/Decode.lean ====
section
/-! DEFINITION. Fields, decoder, encoder and opcode map of 30_encoding.md (R60 to R68) and 40_instruction_cycle.md (R85, R86). -/

namespace Sys2Proof

/-- `op = iw[15:12]` (R61). -/
def opOf (iw : Word) : Nibble := iw.extractLsb' 12 4

/-- `X = iw[11:8]` (R61). -/
def xOf (iw : Word) : Nibble := iw.extractLsb' 8 4

/-- `Y = iw[7:4]` (R61). -/
def yOf (iw : Word) : Nibble := iw.extractLsb' 4 4

/-- `N = iw[3:0]` (R61). -/
def nOf (iw : Word) : Nibble := iw.extractLsb' 0 4

/-- `NN = iw[7:0]` (R61). -/
def nnOf (iw : Word) : Byte := iw.extractLsb' 0 8

/-- `NNN = iw[11:0]` (R61). -/
def nnnOf (iw : Word) : Addr := iw.extractLsb' 0 12

/-- The instruction word of two consecutive bytes, the byte at the lower address the high one (R42, R60). -/
def wordOf (hi lo : Byte) : Word := hi ++ lo

/-- The two bytes of an instruction word, in address order (R42, R60). -/
def bytesOf (iw : Word) : List Byte := [iw.extractLsb' 8 8, iw.extractLsb' 0 8]

/-- Why bytes are no instruction. -/
inductive DecodeError where
  /-- Fewer than two bytes: every instruction is exactly two (R60). -/
  | truncated
  /-- The word matches no row of the opcode map (R65). -/
  | unknownOpcode (iw : Word)
  deriving DecidableEq, Repr

/-- Class 0x0: the sub-key is NN, nibble X is ignored (R64, R86). -/
def decodeClass0 (iw : Word) : Except DecodeError Instr :=
  match nnOf iw with
  | 0x00#8 => .ok .halt
  | 0xE0#8 => .ok .cls
  | 0xEE#8 => .ok .ret
  | _ => .error (.unknownOpcode iw)

/-- Class 0x8: the sub-key is N (R64, R86). -/
def decodeClass8 (iw : Word) : Except DecodeError Instr :=
  match nOf iw with
  | 0x0#4 => .ok (.ldReg (xOf iw) (yOf iw))
  | 0x1#4 => .ok (.orReg (xOf iw) (yOf iw))
  | 0x2#4 => .ok (.andReg (xOf iw) (yOf iw))
  | 0x3#4 => .ok (.xorReg (xOf iw) (yOf iw))
  | 0x4#4 => .ok (.addReg (xOf iw) (yOf iw))
  | 0x5#4 => .ok (.subReg (xOf iw) (yOf iw))
  | 0x6#4 => .ok (.shrReg (xOf iw) (yOf iw))
  | 0x7#4 => .ok (.subnReg (xOf iw) (yOf iw))
  | 0xE#4 => .ok (.shlReg (xOf iw) (yOf iw))
  | _ => .error (.unknownOpcode iw)

/-- Class 0xE: the sub-key is NN (R64, R86). -/
def decodeClassE (iw : Word) : Except DecodeError Instr :=
  match nnOf iw with
  | 0x9E#8 => .ok (.skp (xOf iw))
  | 0xA1#8 => .ok (.sknp (xOf iw))
  | _ => .error (.unknownOpcode iw)

/-- Class 0xF: the sub-key is NN (R64, R86). -/
def decodeClassF (iw : Word) : Except DecodeError Instr :=
  match nnOf iw with
  | 0x07#8 => .ok (.ldVxDt (xOf iw))
  | 0x0A#8 => .ok (.ldVxK (xOf iw))
  | 0x15#8 => .ok (.ldDtVx (xOf iw))
  | 0x18#8 => .ok (.ldStVx (xOf iw))
  | 0x1E#8 => .ok (.addI (xOf iw))
  | 0x29#8 => .ok (.ldF (xOf iw))
  | 0x33#8 => .ok (.bcd (xOf iw))
  | 0x55#8 => .ok (.storeRegs (xOf iw))
  | 0x65#8 => .ok (.loadRegs (xOf iw))
  | _ => .error (.unknownOpcode iw)

/-- The router of R86: by op, then by the class's sub-key. It reads the word alone (R85); no quirk changes it (R68). -/
def decodeWord (iw : Word) : Except DecodeError Instr :=
  match opOf iw with
  | 0x0#4 => decodeClass0 iw
  | 0x1#4 => .ok (.jp (nnnOf iw))
  | 0x2#4 => .ok (.call (nnnOf iw))
  | 0x3#4 => .ok (.seImm (xOf iw) (nnOf iw))
  | 0x4#4 => .ok (.sneImm (xOf iw) (nnOf iw))
  | 0x5#4 => .ok (.seReg (xOf iw) (yOf iw))
  | 0x6#4 => .ok (.ldImm (xOf iw) (nnOf iw))
  | 0x7#4 => .ok (.addImm (xOf iw) (nnOf iw))
  | 0x8#4 => decodeClass8 iw
  | 0x9#4 => .ok (.sneReg (xOf iw) (yOf iw))
  | 0xA#4 => .ok (.ldI (nnnOf iw))
  | 0xB#4 => .ok (.jpV0 (nnnOf iw))
  | 0xC#4 => .ok (.rnd (xOf iw) (nnOf iw))
  | 0xD#4 => .ok (.drw (xOf iw) (yOf iw) (nOf iw))
  | 0xE#4 => decodeClassE iw
  | _ => decodeClassF iw

/-- Decoding a stream of bytes: the instruction of the first two and the bytes after them (R42, R60). -/
def decode (bytes : List Byte) : Except DecodeError (Instr × List Byte) :=
  match bytes with
  | hi :: lo :: rest =>
    match decodeWord (wordOf hi lo) with
    | .ok i => .ok (i, rest)
    | .error e => .error e
  | _ => .error .truncated

/-- A word of format A: class and 12-bit address (R62). -/
def encA (op : Nibble) (nnn : Addr) : Word := op ++ nnn

/-- A word of format XK or Xkk: class, X, and the byte that is the immediate or the sub-key (R62). -/
def encXK (op x : Nibble) (nn : Byte) : Word := (op ++ x : BitVec 8) ++ nn

/-- A word of format XY-, XYk or XYN: class, X, Y, and the low nibble (R62). -/
def encXYN (op x y n : Nibble) : Word := (op ++ x : BitVec 8) ++ (y ++ n : BitVec 8)

/-- The word of an instruction (R66); an ignored nibble is assembled as 0 (R69). -/
def encode (i : Instr) : Word :=
  match i with
  | .halt => encXK 0x0#4 0x0#4 0x00#8
  | .cls => encXK 0x0#4 0x0#4 0xE0#8
  | .ret => encXK 0x0#4 0x0#4 0xEE#8
  | .jp nnn => encA 0x1#4 nnn
  | .call nnn => encA 0x2#4 nnn
  | .seImm x nn => encXK 0x3#4 x nn
  | .sneImm x nn => encXK 0x4#4 x nn
  | .seReg x y => encXYN 0x5#4 x y 0x0#4
  | .sneReg x y => encXYN 0x9#4 x y 0x0#4
  | .ldImm x nn => encXK 0x6#4 x nn
  | .addImm x nn => encXK 0x7#4 x nn
  | .ldReg x y => encXYN 0x8#4 x y 0x0#4
  | .orReg x y => encXYN 0x8#4 x y 0x1#4
  | .andReg x y => encXYN 0x8#4 x y 0x2#4
  | .xorReg x y => encXYN 0x8#4 x y 0x3#4
  | .addReg x y => encXYN 0x8#4 x y 0x4#4
  | .subReg x y => encXYN 0x8#4 x y 0x5#4
  | .subnReg x y => encXYN 0x8#4 x y 0x7#4
  | .shrReg x y => encXYN 0x8#4 x y 0x6#4
  | .shlReg x y => encXYN 0x8#4 x y 0xE#4
  | .ldI nnn => encA 0xA#4 nnn
  | .jpV0 nnn => encA 0xB#4 nnn
  | .rnd x nn => encXK 0xC#4 x nn
  | .drw x y n => encXYN 0xD#4 x y n
  | .skp x => encXK 0xE#4 x 0x9E#8
  | .sknp x => encXK 0xE#4 x 0xA1#8
  | .ldVxDt x => encXK 0xF#4 x 0x07#8
  | .ldDtVx x => encXK 0xF#4 x 0x15#8
  | .ldStVx x => encXK 0xF#4 x 0x18#8
  | .addI x => encXK 0xF#4 x 0x1E#8
  | .ldVxK x => encXK 0xF#4 x 0x0A#8
  | .ldF x => encXK 0xF#4 x 0x29#8
  | .bcd x => encXK 0xF#4 x 0x33#8
  | .storeRegs x => encXK 0xF#4 x 0x55#8
  | .loadRegs x => encXK 0xF#4 x 0x65#8

/-- The mask and match columns of the instruction's row in R66: a word is the instruction when `iw & mask = match`. -/
def rowOf (i : Instr) : Word × Word :=
  match i with
  | .halt => (0xF0FF#16, 0x0000#16)
  | .cls => (0xF0FF#16, 0x00E0#16)
  | .ret => (0xF0FF#16, 0x00EE#16)
  | .jp _ => (0xF000#16, 0x1000#16)
  | .call _ => (0xF000#16, 0x2000#16)
  | .seImm _ _ => (0xF000#16, 0x3000#16)
  | .sneImm _ _ => (0xF000#16, 0x4000#16)
  | .seReg _ _ => (0xF000#16, 0x5000#16)
  | .sneReg _ _ => (0xF000#16, 0x9000#16)
  | .ldImm _ _ => (0xF000#16, 0x6000#16)
  | .addImm _ _ => (0xF000#16, 0x7000#16)
  | .ldReg _ _ => (0xF00F#16, 0x8000#16)
  | .orReg _ _ => (0xF00F#16, 0x8001#16)
  | .andReg _ _ => (0xF00F#16, 0x8002#16)
  | .xorReg _ _ => (0xF00F#16, 0x8003#16)
  | .addReg _ _ => (0xF00F#16, 0x8004#16)
  | .subReg _ _ => (0xF00F#16, 0x8005#16)
  | .subnReg _ _ => (0xF00F#16, 0x8007#16)
  | .shrReg _ _ => (0xF00F#16, 0x8006#16)
  | .shlReg _ _ => (0xF00F#16, 0x800E#16)
  | .ldI _ => (0xF000#16, 0xA000#16)
  | .jpV0 _ => (0xF000#16, 0xB000#16)
  | .rnd _ _ => (0xF000#16, 0xC000#16)
  | .drw _ _ _ => (0xF000#16, 0xD000#16)
  | .skp _ => (0xF0FF#16, 0xE09E#16)
  | .sknp _ => (0xF0FF#16, 0xE0A1#16)
  | .ldVxDt _ => (0xF0FF#16, 0xF007#16)
  | .ldDtVx _ => (0xF0FF#16, 0xF015#16)
  | .ldStVx _ => (0xF0FF#16, 0xF018#16)
  | .addI _ => (0xF0FF#16, 0xF01E#16)
  | .ldVxK _ => (0xF0FF#16, 0xF00A#16)
  | .ldF _ => (0xF0FF#16, 0xF029#16)
  | .bcd _ => (0xF0FF#16, 0xF033#16)
  | .storeRegs _ => (0xF0FF#16, 0xF055#16)
  | .loadRegs _ => (0xF0FF#16, 0xF065#16)

/-- The nibbles of the word the decoder looks at or takes an operand from: all but the ignored ones of R64. -/
def usedBits (i : Instr) : Word :=
  match i with
  | .halt | .cls | .ret => 0xF0FF#16
  | .seReg _ _ | .sneReg _ _ => 0xFFF0#16
  | .jp _ | .call _ | .ldI _ | .jpV0 _ => 0xFFFF#16
  | .seImm _ _ | .sneImm _ _ | .ldImm _ _ | .addImm _ _ | .rnd _ _ => 0xFFFF#16
  | .ldReg _ _ | .orReg _ _ | .andReg _ _ | .xorReg _ _ => 0xFFFF#16
  | .addReg _ _ | .subReg _ _ | .subnReg _ _ | .shrReg _ _ | .shlReg _ _ => 0xFFFF#16
  | .drw _ _ _ => 0xFFFF#16
  | .skp _ | .sknp _ | .ldVxDt _ | .ldDtVx _ | .ldStVx _ | .addI _ | .ldVxK _ => 0xFFFF#16
  | .ldF _ | .bcd _ | .storeRegs _ | .loadRegs _ => 0xFFFF#16

/-- What the decoder reads from an instruction whose bits, numbered from the least significant bit of its 16-bit word, are
`w` (a table row has `nbits` of them, bits above are 0). -/
def decodeTableWord (nbits w : Nat) : Option Instr :=
  match decode (bytesOf (BitVec.ofNat 16 (w % 2 ^ nbits))) with
  | .ok (i, _) => some i
  | .error _ => none

end Sys2Proof
end

