-- ==== Sys2Proof/Machine/State.lean ====
section
/-! DEFINITION. The state of the core (R20 to R36), the ports it meets the host through (R10), and its reset value (R35). -/

namespace Sys2Proof.Machine

/-- The run state (R30); `AwaitKey` is the key wait, `Halted` is terminal. -/
inductive RunState where
  | running
  | awaitKey
  | halted
  deriving DecidableEq, Repr

/-- The status codes of R201, in the order of their numbers. Codes 3 to 8 are also the halt causes (R30). -/
inductive Status where
  | ok
  | unknownOpcode
  | awaitingKey
  | halt
  | infiniteLoop
  | outOfBoundsFetch
  | stackOverflow
  | stackUnderflow
  | outOfBoundsAccess
  | haltedError
  | loadError
  deriving DecidableEq, Repr

/-- The number of a status on the 4-bit `status` port (R201). -/
def Status.code (c : Status) : BitVec 4 :=
  match c with
  | .ok => 0
  | .unknownOpcode => 1
  | .awaitingKey => 2
  | .halt => 3
  | .infiniteLoop => 4
  | .outOfBoundsFetch => 5
  | .stackOverflow => 6
  | .stackUnderflow => 7
  | .outOfBoundsAccess => 8
  | .haltedError => 9
  | .loadError => 10

/-- What a step reports to the host beside its status (R203, R206, R207); no instruction can read it. -/
inductive Report where
  /-- nothing beside the status -/
  | nothing
  /-- OutOfBoundsFetch: the fetch address (R203) -/
  | fetchAddress (pc0 : Word)
  /-- OutOfBoundsAccess: the lowest address of the range that is above 0xFFF (R156, R206) -/
  | dataAddress (addr : Nat)
  /-- UnknownOpcode: the word and its address (R207) -/
  | unknownWord (iw pc0 : Word)
  deriving DecidableEq, Repr

/-- Memory: the bytes that do not read as `Config.memBlank`, by rising address. -/
abbrev Memory := List Host.Cell

/-- The canonical form from address `lo` on: addresses strictly rising, inside the memory, no entry that an unlisted
address reads as. -/
def Memory.wfFrom (lo : Nat) (m : Memory) : Bool :=
  match m with
  | [] => true
  | (a, v) :: rest =>
    decide (lo ≤ a) && decide (a < Config.memSize) && decide (v ≠ Config.memBlank) && Memory.wfFrom (a + 1) rest

/-- The canonical form: equal memories are equal lists. -/
def Memory.wf (m : Memory) : Bool := Memory.wfFrom 0 m

/-- The display surface: one row of DISPLAY_W one-bit cells for each y, bit x of a row the cell of column x (R31; log 11). -/
abbrev Display := Vector (BitVec Config.displayW) Config.displayH

/-- Why the machine stops without a next state. -/
inductive Fault where
  /-- A host reset whose program is longer than PROG_MAX: no machine results (R202, R231). Raised by `hostReset` alone,
  never by an instruction. Safe: the spec leaves no core to go on with (log 10). -/
  | loadError
  deriving DecidableEq, Repr

/-- Why an instruction has no meaning. -/
inductive Refusal where
  /-- The instruction of this mnemonic is not modelled. Raised by an arm of `exec` only; no arm raises it now. Safe. -/
  | notModelled (mnemonic : String)
  deriving DecidableEq, Repr

/-- The state. The first group is the spec's complete state of the core (R20); the second the ports and the open
parameter of R8 and R10; the third the model's own. -/
structure State where
  /-- `x[0] .. x[15]`; `x[15]` is `VF` (R21, R22) -/
  v : Vector Byte 16
  /-- the index register `I` (R23) -/
  i : Word
  /-- the program counter (R24) -/
  pc : Word
  /-- `stack[0 .. STACK_DEPTH-1]`; live below `sp` (R25) -/
  stack : Vector Word Config.stackDepth
  /-- the stack depth, 0 to STACK_DEPTH (R25) -/
  sp : Fin (Config.stackDepth + 1)
  /-- the delay timer (R26) -/
  dt : Byte
  /-- the sound timer (R27) -/
  st : Byte
  /-- `mem[0x000 .. 0xFFF]` (R28) -/
  mem : Memory
  /-- the display surface (R31) -/
  disp : Display
  /-- the quirk configuration `q` (R29) -/
  quirks : Quirks
  /-- the run state (R30) -/
  run : RunState
  /-- why the core halted; `ok` while it has not (R30) -/
  haltCause : Status
  /-- `key_prev`: the key sample of the previous step of the current key wait (R33) -/
  keyPrev : Word
  /-- `wait_reg`: the register the current key wait will write (R33) -/
  waitReg : Nibble
  /-- output: the result code of the last step (R10, R88; log 8) -/
  status : Status
  /-- output: the last step executed CLS or DRW (R10, R90; log 8) -/
  displayDirty : Bool
  /-- output: what the last step reported beside its status (R203, R206, R207; log 8) -/
  report : Report
  /-- input: the key sample of the current step (R10, R32; log 9) -/
  keys : Word
  /-- input: the random byte of the current step (R10, R186; log 9) -/
  rand : Byte
  /-- parameter `DRAW_EDGE` (R8; log 3) -/
  drawEdge : DrawEdge
  /-- the model's own: the host's coming actions, oldest first; after them come free ones (R9; log 1) -/
  hostActions : List HostAction
  /-- the model's own: the number of the next free action (log 2) -/
  actionIndex : Nat
  deriving DecidableEq, Repr

/-- The machine right after a reset with the values of R35. Where reset takes an argument, the model's choice: an empty
program (log 6), a font of zeros (log 5), `MEM_INIT` all zero (log 4), quirks all 0 (log 7), `DRAW_EDGE` clip (log 3);
ports and the model's own fields: log 8, log 9, log 1, log 2. -/
def State.reset : State where
  v := Vector.replicate 16 0x00#8
  i := 0x0000#16
  pc := 0x0200#16
  stack := Vector.replicate Config.stackDepth 0x0000#16
  sp := ⟨0, by decide⟩
  dt := 0x00#8
  st := 0x00#8
  mem := []
  disp := Vector.replicate Config.displayH (BitVec.zero Config.displayW)
  quirks := { legacyShift := false, legacyJump := false, autoIncrementIndex := false }
  run := .running
  haltCause := .ok
  keyPrev := 0x0000#16
  waitReg := 0x0#4
  status := .ok
  displayDirty := false
  report := .nothing
  keys := 0x0000#16
  rand := 0x00#8
  drawEdge := .clip
  hostActions := []
  actionIndex := 0

end Sys2Proof.Machine
end

