-- ==== Sys2Proof/Machine/Ops.lean ====
section
/-! DEFINITION. The named operations over registers, memory, stack, display and timers, the halt entry (this machine's
exception entry, R208), and the actions around an instruction: fetch, advance, key wait, tick, reset. -/

namespace Sys2Proof.Machine

/-! ## Registers (R21, R23, R24, R26, R27) -/

/-- Register 0xF, the flag (R22). -/
def vf : Nibble := 0xF#4

/-- `x[r]` (R13). -/
def State.reg (s : State) (r : Nibble) : Byte := s.v[r.toNat]'r.isLt

/-- `x[r] <- b` (R13). None of the sixteen is hardwired (R21). -/
def State.setReg (s : State) (r : Nibble) (b : Byte) : State := { s with v := s.v.set r.toNat b r.isLt }

/-- `I <- w`. -/
def State.setIndex (s : State) (w : Word) : State := { s with i := w }

/-- `pc <- w`. -/
def State.setPc (s : State) (w : Word) : State := { s with pc := w }

/-- `dt <- b`. -/
def State.setDelay (s : State) (b : Byte) : State := { s with dt := b }

/-- `st <- b`. -/
def State.setSound (s : State) (b : Byte) : State := { s with st := b }

/-- The memory becomes `m`. -/
def State.setMem (s : State) (m : Memory) : State := { s with mem := m }

/-- The display surface becomes `d`, and the step is one that draws (R90). -/
def State.setDisplay (s : State) (d : Display) : State := { s with disp := d, displayDirty := true }

/-- The output `sound_active` (R10, R27). -/
def State.soundActive (s : State) : Bool := s.st != 0x00#8

/-- The registers `x[k], x[k+1], ...` take the listed bytes, in ascending order (R155). -/
def State.setRegsFrom (s : State) (k : Nat) (l : List Byte) : State :=
  match l with
  | [] => s
  | b :: rest => (s.setReg (BitVec.ofNat 4 k) b).setRegsFrom (k + 1) rest

/-- `x[0], ..., x[x]` (R154). -/
def State.regsUpTo (s : State) (x : Nibble) : List Byte :=
  (List.range (x.toNat + 1)).map fun k => s.reg (BitVec.ofNat 4 k)

/-! ## Memory (R40 to R47) -/

/-- The byte `mem[a]`; a byte nothing has written reads as `Config.memBlank` (R47, log 4). -/
def Memory.read (m : Memory) (a : Nat) : Byte :=
  match m with
  | [] => Config.memBlank
  | (b, v) :: rest => if a = b then v else Memory.read rest a

/-- One entry in front of the entries above it, left out when an unlisted address reads the same. -/
def Memory.put (a : Nat) (v : Byte) (rest : Memory) : Memory :=
  if v = Config.memBlank then rest else (a, v) :: rest

/-- `mem[a] <- v`, keeping the canonical form (R47). -/
def Memory.write (m : Memory) (a : Nat) (v : Byte) : Memory :=
  match m with
  | [] => Memory.put a v []
  | (b, u) :: rest =>
    if a < b then Memory.put a v ((b, u) :: rest)
    else if a = b then Memory.put a v rest
    else (b, u) :: Memory.write rest a v

/-- The listed bytes go to `a, a+1, ...`, in ascending order (R42, R48). -/
def Memory.storeBytes (m : Memory) (a : Nat) (l : List Byte) : Memory :=
  match l with
  | [] => m
  | b :: rest => (m.write a b).storeBytes (a + 1) rest

/-- The `n` bytes at `a, a+1, ...` (R42, R48). -/
def Memory.loadBytes (m : Memory) (a n : Nat) : List Byte :=
  (List.range n).map fun k => m.read (a + k)

/-- Scattered bytes go to their addresses; an address outside the memory is passed over. -/
def Memory.storeCells (m : Memory) (l : List (Nat × Byte)) : Memory :=
  match l with
  | [] => m
  | (a, b) :: rest => (if a < Config.memSize then m.write a b else m).storeCells rest

/-! ## Halt entry (R208): all this machine has in place of exception entry. There is no return from it but reset (R211). -/

/-- `halt_entry(c)`: nothing but `run`, `halt_cause` and `status` is written (R208). -/
def haltEntry (c : Status) (s : State) : State := { s with run := .halted, haltCause := c, status := c }

/-- `raise E(info)`: the halt entry with cause E; the info is reported and stored nowhere else (R14, R156, R208). -/
def raise (c : Status) (info : Report) (s : State) : State := { haltEntry c s with report := info }

/-- The range check of the data-accessing instructions: with `count` bytes from `I` on, the lowest address above 0xFFF, if
there is one (R46, R156). Addresses are not reduced. -/
def rangeError (i : Word) (count : Nat) : Option Nat :=
  if 0 < count ∧ Config.maxAddr < i.toNat + (count - 1) then some (max i.toNat Config.memSize) else none

/-- Check before any access: the instruction's effect `t`, or OutOfBoundsAccess with nothing of it done (R46, R206). -/
def accessOr (count : Nat) (s t : State) : State :=
  match rangeError s.i count with
  | some a => raise .outOfBoundsAccess (.dataAddress a) s
  | none => t

/-! ## Call stack (R25) -/

/-- Push of `w`, when there is room (R25). -/
def pushReturn (w : Word) (s : State) : Option State :=
  if h : s.sp.val < Config.stackDepth then
    some { s with stack := s.stack.set s.sp.val w h, sp := ⟨s.sp.val + 1, Nat.succ_lt_succ h⟩ }
  else none

/-- Pop, when the stack is not empty: the popped value and the state; the entry keeps its value (R25). -/
def popReturn (s : State) : Option (Word × State) :=
  if h : 0 < s.sp.val then
    let top := s.sp.val - 1
    have htop : top < Config.stackDepth :=
      Nat.lt_of_lt_of_le (Nat.sub_lt h Nat.one_pos) (Nat.le_of_lt_succ s.sp.isLt)
    some (s.stack[top]'htop, { s with sp := ⟨top, Nat.lt_succ_of_lt htop⟩ })
  else none

/-! ## Display (R31, R171) -/

/-- The cell `disp[y][x]`. -/
def cellAt (d : Display) (y x : Nat) : Bool :=
  if h : y < Config.displayH then (d[y]'h).getLsbD x else false

/-- `disp[y][x] <- disp[y][x] ^ 1`. -/
def flipCell (d : Display) (y x : Nat) : Display :=
  if h : y < Config.displayH then d.set y (d[y]'h ^^^ BitVec.twoPow Config.displayW x) h else d

/-- Every cell 0 (R170). -/
def blankDisplay : Display := Vector.replicate Config.displayH (BitVec.zero Config.displayW)

/-- Where a row or column number lands on a surface of that size: past the edge it is skipped (clip) or reduced (wrap). -/
def place (edge : DrawEdge) (size k : Nat) : Option Nat :=
  if k < size then some k
  else match edge with
    | .clip => none
    | .wrap => some (k % size)

/-- One pixel of a sprite row: column `c` of the byte `b`, bit 7 leftmost, to row `y`, column `x0 + c` of the display. The
pair is the display and whether a lit cell was erased so far (R171). -/
def drawPixel (edge : DrawEdge) (x0 y : Nat) (b : Byte) (c : Nat) (acc : Display × Bool) : Display × Bool :=
  if b.getLsbD (7 - c) then
    match place edge Config.displayW (x0 + c) with
    | none => acc
    | some xx => (flipCell acc.1 y xx, acc.2 || cellAt acc.1 y xx)
  else acc

/-- One sprite row, its eight pixels in ascending order (R171). -/
def drawRow (edge : DrawEdge) (x0 y : Nat) (b : Byte) (acc : Display × Bool) : Display × Bool :=
  (List.range 8).foldl (fun a c => drawPixel edge x0 y b c a) acc

/-- The sprite rows `rows`, the first at display row `y`, downward (R171). -/
def drawRows (edge : DrawEdge) (x0 y : Nat) (rows : List Byte) (acc : Display × Bool) : Display × Bool :=
  match rows with
  | [] => acc
  | b :: rest =>
    drawRows edge x0 (y + 1) rest
      (match place edge Config.displayH y with
       | none => acc
       | some yy => drawRow edge x0 yy b acc)

/-! ## Fetch and advance (R44, R83, R84) -/

/-- `Fetch(pc)`: nothing when either byte is above 0xFFF, else the big-endian word (R42, R44). -/
def fetch (s : State) : Option Word :=
  if s.pc.toNat < Config.maxAddr then some (wordOf (s.mem.read s.pc.toNat) (s.mem.read (s.pc.toNat + 1))) else none

/-- `pc <- pc0 + 2`, after a successful fetch and before the instruction (R84). -/
def advance (s : State) : State := s.setPc (s.pc + 2#16)

/-- `pc0` inside an instruction: the address it was fetched from, `pc = pc0 + 2` (R13, R84; log 12). -/
def State.pc0 (s : State) : Word := s.pc - 2#16

/-- A skip: `pc <- pc + 2` when the condition holds (R114). -/
def skipIf (c : Bool) (s : State) : State := s.setPc (if c then s.pc + 2#16 else s.pc)

/-- The unknown word `iw`, `pc` already advanced: reported, nothing else (R87, R207). -/
def unknownWord (iw : Word) (s : State) : State :=
  { s with status := .unknownOpcode, report := .unknownWord iw s.pc0 }

/-! ## Key wait (R33, R82, R182) -/

/-- Key k of a key sample is down (R10). -/
def keyDown (keys : Word) (k : Nibble) : Bool := keys.getLsbD k.toNat

/-- The lowest key of a set of keys (R82). -/
def lowestKey (down : Word) : Option Nibble :=
  ((List.range 16).find? fun k => down.getLsbD k).map (BitVec.ofNat 4)

/-- The wait for a key begins, `x` the register it will write (R182). -/
def enterKeyWait (x : Nibble) (s : State) : State :=
  { s with waitReg := x, keyPrev := s.keys, run := .awaitKey, status := .awaitingKey }

/-- The await step (R82). -/
def awaitStep (s : State) : State :=
  match lowestKey (s.keys &&& ~~~s.keyPrev) with
  | some k => { s.setReg s.waitReg (k.setWidth 8) with run := .running, status := .ok, keyPrev := s.keys }
  | none => { s with status := .awaitingKey, keyPrev := s.keys }

/-! ## The actions of the host (R9) -/

/-- The inputs of a step are sampled (R10). -/
def sampleInputs (keys : Word) (rand : Byte) (s : State) : State := { s with keys := keys, rand := rand }

/-- `status <- OK; display_dirty <- 0`, and nothing reported yet (R80). -/
def beginStep (s : State) : State := { s with status := .ok, displayDirty := false, report := .nothing }

/-- A step in Halted: the status, and no state of the core (R81, R210). -/
def haltedStep (s : State) : State := { s with status := .haltedError }

/-- A timer after a tick: one less, floored at 0 (R214). -/
def countDown (t : Byte) : Byte := if t = 0x00#8 then 0x00#8 else t - 1#8

/-- `tick()`: both timers and nothing else, in every run state (R214). -/
def tick (s : State) : State := { s with dt := countDown s.dt, st := countDown s.st }

/-- The memory image after a reset (R230, R233). -/
def resetImage (a : ResetArgs) : Memory :=
  ((Memory.storeCells [] a.memInit).storeBytes Config.fontBase a.font.toList).storeBytes Config.progBase a.program

/-- The core after a successful reset: nothing of its state survives (R230, R236). What is not state of the core stays: the
inputs, the parameter `DRAW_EDGE`, the host's coming actions (log 13). -/
def construct (a : ResetArgs) (s : State) : State :=
  { State.reset with
    mem := resetImage a
    quirks := a.quirks
    keys := s.keys
    rand := s.rand
    drawEdge := s.drawEdge
    hostActions := s.hostActions
    actionIndex := s.actionIndex }

/-- `reset(font, program, quirks)`: LoadError and no machine when the program is too long (R202, R230, R231; log 10). -/
def hostReset (a : ResetArgs) (s : State) : Host.Outcome State Fault Refusal :=
  if a.programFits then .next (construct a s) else .fault .loadError

/-- The host's next action, and the state without it: the oldest listed one; with none listed, a free one, so that every
interleaving of the host's actions, finite or infinite, is a run (R9, R92, R245; log 1, log 2). -/
def nextAction (s : State) : HostAction × State :=
  match s.hostActions with
  | a :: rest => (a, { s with hostActions := rest })
  | [] => (Config.freeAction s.actionIndex, { s with actionIndex := s.actionIndex + 1 })

end Sys2Proof.Machine
end

