-- ==== Sys2Proof/Machine/Operands.lean ====
section
/-! DEFINITION. The operand forms: immediates (R63), the offset jump's register (R104), the key index (R180), the glyph
address (R152), the shifted register (R136, R138), the sprite position (R171), the BCD digits (R153). -/

namespace Sys2Proof.Machine

/-- `zext_16(NNN)` (R63). -/
def addrWord (nnn : Addr) : Word := nnn.setWidth 16

/-- `zext_16` of a register (R104). -/
def byteWord (b : Byte) : Word := b.setWidth 16

/-- `X = NNN[11:8]`, the register field inside the offset jump's address (R62, R104). -/
def addrRegister (nnn : Addr) : Nibble := nnn.extractLsb' 8 4

/-- The register the offset jump adds: `x[0]` in legacy mode, `x[X]` in modern mode (R104). -/
def State.jumpOffset (s : State) (nnn : Addr) : Byte :=
  if s.quirks.legacyJump then s.reg 0x0#4 else s.reg (addrRegister nnn)

/-- The key a register selects: its low 4 bits (R180). -/
def keyIndex (b : Byte) : Nibble := b.extractLsb' 0 4

/-- `0x050 + 5 * x[X]`, the register used in full (R152). -/
def glyphAddress (b : Byte) : Word := BitVec.ofNat 16 (Config.fontBase + Config.glyphBytes * b.toNat)

/-- The shifts' first assignment: with `legacy_shift`, `x[X] <- x[Y]` (R136, R138). -/
def State.copyForShift (s : State) (x y : Nibble) : State :=
  if s.quirks.legacyShift then s.setReg x (s.reg y) else s

/-- The sprite's first column, `x[X] mod DISPLAY_W` (R171). -/
def startColumn (b : Byte) : Nat := b.toNat % Config.displayW

/-- The sprite's first row, `x[Y] mod DISPLAY_H` (R171). -/
def startRow (b : Byte) : Nat := b.toNat % Config.displayH

/-- Hundreds, tens and ones of a byte, as binary values (R153). -/
def bcdDigits (b : Byte) : List Byte :=
  [BitVec.ofNat 8 (b.toNat / 100), BitVec.ofNat 8 (b.toNat / 10 % 10), BitVec.ofNat 8 (b.toNat % 10)]

/-- The bulk transfers' last assignment: with `auto_increment_index`, `I <- I + X + 1` (R154, R155). -/
def State.autoIncrement (s : State) (x : Nibble) : State :=
  if s.quirks.autoIncrementIndex then s.setIndex (s.i + x.setWidth 16 + 1#16) else s

end Sys2Proof.Machine
end

