-- ==== Sys2Proof/Machine/Flags.lean ====
section
/-! DEFINITION. The values written to the flag `VF` (R22). A comparison yields 1 when true and 0 when false (R12). -/

namespace Sys2Proof.Machine

/-- A truth value as a register value (R12). -/
def flagByte (c : Bool) : Byte := if c then 0x01#8 else 0x00#8

/-- ADD Vx,Vy: 1 when the pre-wrap sum fits in 8 bits, 0 on overflow (R134). -/
def addFlag (a b : Byte) : Byte := flagByte (decide (a.toNat + b.toNat ≤ 255))

/-- SUB, SUBN: 1 when the minuend `a` is at least the subtrahend `b`, no borrow (R135, R137). -/
def noBorrowFlag (a b : Byte) : Byte := flagByte (decide (b.toNat ≤ a.toNat))

/-- SHR: bit 0 of the value that is shifted (R136). -/
def lowBitFlag (a : Byte) : Byte := a &&& 0x01#8

/-- SHL: bit 7 of the value that is shifted (R138). -/
def highBitFlag (a : Byte) : Byte := a >>> 7

/-- `VF <- b`. -/
def State.setFlag (s : State) (b : Byte) : State := s.setReg vf b

end Sys2Proof.Machine
end

