-- ==== Sys2Proof/Machine/Alu.lean ====
section
/-! DEFINITION. Register-to-register operations of class 8 (44_alu.md). The assignments of an instruction are performed in
the order written, each reading what the previous one left (R15, R129); it matters when X or Y is 0xF. -/

namespace Sys2Proof.Machine

/-- LD Vx, Vy (R130). -/
def execLdReg (x y : Nibble) (s : State) : Host.Outcome State Fault Refusal := .next (s.setReg x (s.reg y))

/-- OR Vx, Vy (R131). -/
def execOrReg (x y : Nibble) (s : State) : Host.Outcome State Fault Refusal :=
  .next (s.setReg x (s.reg x ||| s.reg y))

/-- AND Vx, Vy (R132). -/
def execAndReg (x y : Nibble) (s : State) : Host.Outcome State Fault Refusal :=
  .next (s.setReg x (s.reg x &&& s.reg y))

/-- XOR Vx, Vy (R133). -/
def execXorReg (x y : Nibble) (s : State) : Host.Outcome State Fault Refusal :=
  .next (s.setReg x (s.reg x ^^^ s.reg y))

/-- ADD Vx, Vy (R134): the sum first, the flag last. -/
def execAddReg (x y : Nibble) (s : State) : Host.Outcome State Fault Refusal :=
  .next ((s.setReg x (s.reg x + s.reg y)).setFlag (addFlag (s.reg x) (s.reg y)))

/-- `VF <- 1 if x[d] >= x[r] else 0; x[d] <- x[d] - x[r]`: the flag is written first and the difference reads the registers
after it (R135, R137). -/
def subtractInto (d r : Nibble) (s : State) : State :=
  let t := s.setFlag (noBorrowFlag (s.reg d) (s.reg r))
  t.setReg d (t.reg d - t.reg r)

/-- SUB Vx, Vy (R135): into `x[X]`. -/
def execSubReg (x y : Nibble) (s : State) : Host.Outcome State Fault Refusal := .next (subtractInto x y s)

/-- SUBN Vx, Vy (R137): into `x[Y]`. -/
def execSubnReg (x y : Nibble) (s : State) : Host.Outcome State Fault Refusal := .next (subtractInto y x s)

/-- SHR Vx, Vy (R136): copy (legacy), flag, shift, in this order. -/
def execShrReg (x y : Nibble) (s : State) : Host.Outcome State Fault Refusal :=
  let t := s.copyForShift x y
  let u := t.setFlag (lowBitFlag (t.reg x))
  .next (u.setReg x (u.reg x >>> 1))

/-- SHL Vx, Vy (R138): copy (legacy), flag, shift, in this order. -/
def execShlReg (x y : Nibble) (s : State) : Host.Outcome State Fault Refusal :=
  let t := s.copyForShift x y
  let u := t.setFlag (highBitFlag (t.reg x))
  .next (u.setReg x (u.reg x <<< 1))

end Sys2Proof.Machine
end

