-- ==== Sys2Proof/Machine/Control.lean ====
section
/-! DEFINITION. Control flow (41_control_flow.md). In every meaning `pc` has already been advanced (R84). -/

namespace Sys2Proof.Machine

/-- HALT (R100). -/
def execHalt (s : State) : Host.Outcome State Fault Refusal := .next (haltEntry .halt s)

/-- RET (R101). -/
def execRet (s : State) : Host.Outcome State Fault Refusal :=
  .next (match popReturn s with
    | none => haltEntry .stackUnderflow s
    | some (w, t) => t.setPc w)

/-- JP NNN (R102): the jump is performed; a jump to its own address then halts. -/
def execJp (nnn : Addr) (s : State) : Host.Outcome State Fault Refusal :=
  .next (if addrWord nnn = s.pc0 then haltEntry .infiniteLoop (s.setPc (addrWord nnn)) else s.setPc (addrWord nnn))

/-- CALL NNN (R103): pushes the advanced `pc`. -/
def execCall (nnn : Addr) (s : State) : Host.Outcome State Fault Refusal :=
  .next (match pushReturn s.pc s with
    | none => haltEntry .stackOverflow s
    | some t => t.setPc (addrWord nnn))

/-- JP V0, NNN (R104): no self-jump check, the sum is not reduced modulo 0x1000. -/
def execJpV0 (nnn : Addr) (s : State) : Host.Outcome State Fault Refusal :=
  .next (s.setPc (addrWord nnn + byteWord (s.jumpOffset nnn)))

end Sys2Proof.Machine
end

