-- ==== Sys2Proof/Machine/Graphics.lean ====
section
/-! DEFINITION. Display instructions (46_display.md). -/

namespace Sys2Proof.Machine

/-- CLS (R170). -/
def execCls (s : State) : Host.Outcome State Fault Refusal := .next (s.setDisplay blankDisplay)

/-- What DRW draws when its range check passes: the display and whether a lit cell was erased (R171). Both coordinates are
read before `VF` is written. -/
def drawSprite (x y n : Nibble) (s : State) : Display × Bool :=
  drawRows s.drawEdge (startColumn (s.reg x)) (startRow (s.reg y)) (s.mem.loadBytes s.i.toNat n.toNat) (s.disp, false)

/-- DRW Vx, Vy, N (R171): `VF` is written last and always; all N row addresses are checked, clipped or not. -/
def execDrw (x y n : Nibble) (s : State) : Host.Outcome State Fault Refusal :=
  .next (accessOr n.toNat s ((s.setDisplay (drawSprite x y n s).1).setFlag (flagByte (drawSprite x y n s).2)))

end Sys2Proof.Machine
end

