-- ==== Sys2Proof/Machine/IndexMemory.lean ====
section
/-! DEFINITION. Index register and memory transfer (45_index_memory.md). -/

namespace Sys2Proof.Machine

/-- LD I, NNN (R150). -/
def execLdI (nnn : Addr) (s : State) : Host.Outcome State Fault Refusal := .next (s.setIndex (addrWord nnn))

/-- ADD I, Vx (R151): a sum above 0xFFF is reduced modulo 0x1000 and sets `VF`; otherwise `VF` is not written. -/
def execAddI (x : Nibble) (s : State) : Host.Outcome State Fault Refusal :=
  let sum := s.i.toNat + (s.reg x).toNat
  .next (if Config.maxAddr < sum then (s.setIndex (BitVec.ofNat 16 (sum % Config.memSize))).setFlag 0x01#8
    else s.setIndex (BitVec.ofNat 16 sum))

/-- LD F, Vx (R152). -/
def execLdF (x : Nibble) (s : State) : Host.Outcome State Fault Refusal := .next (s.setIndex (glyphAddress (s.reg x)))

/-- BCD Vx (R153). -/
def execBcd (x : Nibble) (s : State) : Host.Outcome State Fault Refusal :=
  .next (accessOr 3 s (s.setMem (s.mem.storeBytes s.i.toNat (bcdDigits (s.reg x)))))

/-- LD [I], Vx, the bulk store (R154). -/
def execStoreRegs (x : Nibble) (s : State) : Host.Outcome State Fault Refusal :=
  .next (accessOr (x.toNat + 1) s ((s.setMem (s.mem.storeBytes s.i.toNat (s.regsUpTo x))).autoIncrement x))

/-- LD Vx, [I], the bulk load (R155). -/
def execLoadRegs (x : Nibble) (s : State) : Host.Outcome State Fault Refusal :=
  .next (accessOr (x.toNat + 1) s ((s.setRegsFrom 0 (s.mem.loadBytes s.i.toNat (x.toNat + 1))).autoIncrement x))

end Sys2Proof.Machine
end

