-- ==== Sys2Proof/Machine/KeypadTimer.lean ====
section
/-! DEFINITION. Keypad, timer and random instructions (47_keypad_timer_random.md). `keys` and `rand` are the samples of the
current step (R10). -/

namespace Sys2Proof.Machine

/-- SKP Vx (R180). -/
def execSkp (x : Nibble) (s : State) : Host.Outcome State Fault Refusal :=
  .next (skipIf (keyDown s.keys (keyIndex (s.reg x))) s)

/-- SKNP Vx (R181). -/
def execSknp (x : Nibble) (s : State) : Host.Outcome State Fault Refusal :=
  .next (skipIf (!keyDown s.keys (keyIndex (s.reg x))) s)

/-- LD Vx, K (R182): only enters the wait; the register is written by a later await step (R82). -/
def execLdVxK (x : Nibble) (s : State) : Host.Outcome State Fault Refusal := .next (enterKeyWait x s)

/-- LD Vx, DT (R183). -/
def execLdVxDt (x : Nibble) (s : State) : Host.Outcome State Fault Refusal := .next (s.setReg x s.dt)

/-- LD DT, Vx (R184). -/
def execLdDtVx (x : Nibble) (s : State) : Host.Outcome State Fault Refusal := .next (s.setDelay (s.reg x))

/-- LD ST, Vx (R185). -/
def execLdStVx (x : Nibble) (s : State) : Host.Outcome State Fault Refusal := .next (s.setSound (s.reg x))

/-- RND Vx, NN (R186): the random byte is the input `rand`, under no law. -/
def execRnd (x : Nibble) (nn : Byte) (s : State) : Host.Outcome State Fault Refusal := .next (s.setReg x (s.rand &&& nn))

end Sys2Proof.Machine
end

