-- ==== Sys2Proof/Machine/Cycle.lean ====
section
/-! DEFINITION. One action of the host on the core: the instruction cycle `step(keys, rand)` (R80), the tick (R214), the
reset (R230). -/

namespace Sys2Proof.Machine

/-- The fetched word `iw` executes, `pc` already advanced: the instruction the router selects, or an unknown word (R85 to R87). -/
def executeWord (iw : Word) (s : State) : Host.Outcome State Fault Refusal :=
  match decodeWord iw with
  | .ok i => exec i s
  | .error _ => .next (unknownWord iw s)

/-- A step in Running: fetch, advance, execute; a failed fetch halts with `pc` not advanced (R80, R83, R84, R203). -/
def runningStep (s : State) : Host.Outcome State Fault Refusal :=
  match fetch s with
  | none => .next (raise .outOfBoundsFetch (.fetchAddress s.pc) s)
  | some iw => executeWord iw (advance s)

/-- `step(keys, rand)`: first the run state is looked at (R80 to R83, R91). -/
def instructionCycle (keys : Word) (rand : Byte) (s : State) : Host.Outcome State Fault Refusal :=
  match s.run with
  | .halted => .next (haltedStep (beginStep (sampleInputs keys rand s)))
  | .awaitKey => .next (awaitStep (beginStep (sampleInputs keys rand s)))
  | .running => runningStep (beginStep (sampleInputs keys rand s))

/-- One action (R9). -/
def perform (a : HostAction) (s : State) : Host.Outcome State Fault Refusal :=
  match a with
  | .step keys rand => instructionCycle keys rand s
  | .tick => .next (tick s)
  | .reset args => hostReset args s

/-- The host's next action is performed (R9; log 1). -/
def performNext (s : State) : Host.Outcome State Fault Refusal := perform (nextAction s).1 (nextAction s).2

/-- The host's coming actions with an instruction cycle first: unchanged where the first listed one is a cycle, else one on
the samples the state holds, put in front (log 16). -/
def stepFirst (s : State) : List HostAction :=
  match s.hostActions with
  | .step keys rand :: rest => .step keys rand :: rest
  | listed => .step s.keys s.rand :: listed

/-- The word `iw` stored at `a` and `a + 1`, the high byte at the lower address (R42). -/
def storeWord (m : Memory) (a : Nat) (iw : Word) : Memory := m.storeBytes a (bytesOf iw)

/-- Where the next instruction is fetched from: `pc`, or PROG_BASE where nothing can be fetched at `pc` (R44; log 16). -/
def fetchPoint (s : State) : Word := if s.pc.toNat < Config.maxAddr then s.pc else BitVec.ofNat 16 Config.progBase

/-- The state about to fetch and run the word `iw`: the word stored at the fetch point, the core Running, an instruction
cycle next (log 16). -/
def readyToRun (iw : Word) (s : State) : State :=
  { s with
    pc := fetchPoint s
    mem := storeWord s.mem (fetchPoint s).toNat iw
    run := .running
    haltCause := .ok
    hostActions := stepFirst s }

end Sys2Proof.Machine
end

