-- ==== Sys2Proof/Machine/Step.lean ====
section
/-! DEFINITION. The step of the machine: one action of the host (R9, R80), and the placing of an instruction for it. -/

namespace Sys2Proof.Machine

/-- One step: the host's next action on the core (R9; log 1). -/
def step (s : State) : Host.Outcome State Fault Refusal := performNext s

/-- `s` with the instruction whose bits are `w` stored where `step` fetches its next instruction (log 6, log 16). -/
def State.withFetchWord (s : State) (nbits w : Nat) : State := readyToRun (BitVec.ofNat 16 (w % 2 ^ nbits)) s

end Sys2Proof.Machine
end

