-- ==== Sys2Proof/Safety.lean ====
section
/-! DEFINITION. The terms claims use: the invariant of every reachable state (R34), how a run has ended (R92), and what a
transition may change. -/

namespace Sys2Proof.Machine

/-- The causes a halted core can have (R30). -/
def Status.isHaltCause (c : Status) : Bool :=
  match c with
  | .halt | .infiniteLoop | .outOfBoundsFetch | .stackOverflow | .stackUnderflow | .outOfBoundsAccess => true
  | .ok | .unknownOpcode | .awaitingKey | .haltedError | .loadError => false

/-- The invariant of R34, clauses (b) to (e), and the canonical form of memory; clauses (a) and (f) hold by the types. -/
structure State.Inv (s : State) : Prop where
  /-- (b) `I <= 0x1000` -/
  index_le : s.i.toNat ≤ 0x1000
  /-- (c) `pc <= 0x10FE` -/
  pc_le : s.pc.toNat ≤ 0x10FE
  /-- (d) every live stack entry is at most 0x1000 -/
  live_le : ∀ k w, k < s.sp.val → s.stack[k]? = some w → w.toNat ≤ 0x1000
  /-- (e) a halted core has a halt cause (R30) -/
  halted_cause : s.run = .halted → s.haltCause.isHaltCause = true
  /-- (e) a core that has not halted has none -/
  not_halted_cause : s.run ≠ .halted → s.haltCause = .ok
  /-- memory is in its canonical form -/
  mem_wf : s.mem.wf = true

/-- A run has ended cleanly: HALT or a self-jump (R92, R209). -/
def State.endedCleanly (s : State) : Prop := s.run = .halted ∧ (s.haltCause = .halt ∨ s.haltCause = .infiniteLoop)

/-- A run has ended in a fault (R92). -/
def State.endedInFault (s : State) : Prop :=
  s.run = .halted ∧ (s.haltCause = .outOfBoundsFetch ∨ s.haltCause = .stackOverflow ∨ s.haltCause = .stackUnderflow
    ∨ s.haltCause = .outOfBoundsAccess)

/-- The parts of the state, down to one register, one stack entry, one memory byte, one display cell. -/
inductive Part where
  | reg (r : Nibble)
  | index
  | pc
  | stackEntry (k : Nat)
  | depth
  | delay
  | sound
  | byte (a : Nat)
  | cell (y x : Nat)
  | quirks
  | run
  | haltCause
  | keyPrev
  | waitReg
  | status
  | displayDirty
  | report
  | keys
  | rand
  | drawEdge
  | hostActions
  | actionIndex
  deriving DecidableEq, Repr

/-- The part reads the same in `t` as in `s`. -/
def Part.Same (p : Part) (s t : State) : Prop :=
  match p with
  | .reg r => t.reg r = s.reg r
  | .index => t.i = s.i
  | .pc => t.pc = s.pc
  | .stackEntry k => t.stack[k]? = s.stack[k]?
  | .depth => t.sp = s.sp
  | .delay => t.dt = s.dt
  | .sound => t.st = s.st
  | .byte a => t.mem.read a = s.mem.read a
  | .cell y x => cellAt t.disp y x = cellAt s.disp y x
  | .quirks => t.quirks = s.quirks
  | .run => t.run = s.run
  | .haltCause => t.haltCause = s.haltCause
  | .keyPrev => t.keyPrev = s.keyPrev
  | .waitReg => t.waitReg = s.waitReg
  | .status => t.status = s.status
  | .displayDirty => t.displayDirty = s.displayDirty
  | .report => t.report = s.report
  | .keys => t.keys = s.keys
  | .rand => t.rand = s.rand
  | .drawEdge => t.drawEdge = s.drawEdge
  | .hostActions => t.hostActions = s.hostActions
  | .actionIndex => t.actionIndex = s.actionIndex

/-- The frame: from `s` to `t` nothing changes outside the parts of `may`. Every register, stack entry, memory byte (at
every address), display cell, timer, latch, port and field of the state is a part. -/
def OnlyChanges (s t : State) (may : Set Part) : Prop := ∀ p, p ∉ may → p.Same s t

/-- The instruction at `pc` is `i`: the fetch succeeds and the fetched word decodes to it (R44, R85). -/
def Fetches (s : State) (i : Instr) : Prop := ∃ iw, fetch s = some iw ∧ decodeWord iw = .ok i

/-- The instructions that check a data range, with the number of bytes from `I` on that they use (R45, R206). -/
def dataCount (i : Instr) : Option Nat :=
  match i with
  | .bcd _ => some 3
  | .storeRegs x | .loadRegs x => some (x.toNat + 1)
  | .drw _ _ n => some n.toNat
  | .halt | .cls | .ret | .jp _ | .call _ | .seImm _ _ | .sneImm _ _ | .seReg _ _ | .sneReg _ _ => none
  | .ldImm _ _ | .addImm _ _ | .ldReg _ _ | .orReg _ _ | .andReg _ _ | .xorReg _ _ | .addReg _ _ => none
  | .subReg _ _ | .subnReg _ _ | .shrReg _ _ | .shlReg _ _ | .ldI _ | .jpV0 _ | .rnd _ _ => none
  | .skp _ | .sknp _ | .ldVxDt _ | .ldDtVx _ | .ldStVx _ | .addI _ | .ldVxK _ | .ldF _ => none

/-- The instruction uses an address above 0xFFF (R206): `I + 2` for BCD, `I + X` for the bulk transfers, `I + N - 1` for DRW
with `N > 0`. -/
def OutOfRange (s : State) (i : Instr) : Prop := ∃ n, dataCount i = some n ∧ 0 < n ∧ 0xFFF < s.i.toNat + n - 1

/-- Row or column `k` of a sprite whose first one is at `start` lands at `pos`: past the edge it is skipped or wraps (R171). -/
def LandsAt (edge : DrawEdge) (size start k pos : Nat) : Prop :=
  match edge with
  | .clip => start + k = pos
  | .wrap => (start + k) % size = pos

/-- A 1 bit of the sprite that `DRW Vx, Vy, N` draws in `s` lands on the display cell of that row and column: bit `7 - c` of
the byte at `I + r` is column `c` of sprite row `r` (R171). -/
def SpritePixelAt (s : State) (x y n : Nibble) (row col : Nat) : Prop :=
  ∃ r c, r < n.toNat ∧ c < 8 ∧ (s.mem.read (s.i.toNat + r)).getLsbD (7 - c) = true ∧
    LandsAt s.drawEdge 32 ((s.reg y).toNat % 32) r row ∧ LandsAt s.drawEdge 64 ((s.reg x).toNat % 64) c col

/-- The host's actions of a list, performed one after another (R9, R92). -/
def performAll (l : List HostAction) (s : State) : Host.Outcome State Fault Refusal :=
  match l with
  | [] => .next s
  | a :: rest =>
    match perform a s with
    | .next t => performAll rest t
    | .fault r => .fault r
    | .refused r => .refused r

/-- The effects of several instructions in a row, without the fetches between them. -/
def execAll (l : List Instr) (s : State) : Host.Outcome State Fault Refusal :=
  match l with
  | [] => .next s
  | i :: rest =>
    match exec i s with
    | .next t => execAll rest t
    | .fault r => .fault r
    | .refused r => .refused r

end Sys2Proof.Machine
end

