-- ==== Sys2Proof/Certificates/Slice0/Obligations.lean ====
section
/-! DEFINITION. The statements for the provers. Each says which rule or section of spec/ it formalises. Where it rests on a
decision D<n> the spec marks as its own choice, on something the spec marks as derived, or on an entry of the assumption
log, its docstring names it and its basis is 'derived'. A frame is `OnlyChanges s t parts`: every register, stack entry,
memory byte, display cell and other field outside `parts` reads in `t` as in `s`. The meanings run after the advance of `pc`
(R84), so `s.pc` in a statement about `exec` is `pc0 + 2`. -/

open Sys2Proof Sys2Proof.Machine

/-! ## Encoding (30_encoding.md) -/

/-- Decode and encode agree: the bytes of any instruction, whatever follows them, decode to it with every operand (R60, R66,
R69). Every instruction is well formed by its types. -/
def Obligations.DecodeEncodeRoundTrip : Prop :=
  ∀ (i : Instr) (rest : List Byte), i.wellFormed = true ∧ decode (bytesOf (encode i) ++ rest) = .ok (i, rest)

/-- The other direction: a word that decodes is its instruction's word but for the ignored nibbles, which are assembled as 0
(R64, R69). Rests on D9. -/
def Obligations.DecodedWordIsEncodingOnUsedBits : Prop :=
  ∀ (w : Word) (i : Instr), decodeWord w = .ok i → encode i = w &&& usedBits i

/-- The opcode map of R66, row by row: a word is the instruction when `iw & mask = match`, with the operands of its format. That
the masks of rows 1 to 3, 8 and 9 leave nibbles out is D9 (log 15). -/
def Obligations.DecodeFollowsOpcodeMap : Prop :=
  ∀ w : Word,
    (w &&& 0xF0FF#16 = 0x0000#16 → decodeWord w = .ok .halt) ∧
    (w &&& 0xF0FF#16 = 0x00E0#16 → decodeWord w = .ok .cls) ∧
    (w &&& 0xF0FF#16 = 0x00EE#16 → decodeWord w = .ok .ret) ∧
    (w &&& 0xF000#16 = 0x1000#16 → decodeWord w = .ok (.jp (w.extractLsb' 0 12))) ∧
    (w &&& 0xF000#16 = 0x2000#16 → decodeWord w = .ok (.call (w.extractLsb' 0 12))) ∧
    (w &&& 0xF000#16 = 0x3000#16 → decodeWord w = .ok (.seImm (w.extractLsb' 8 4) (w.extractLsb' 0 8))) ∧
    (w &&& 0xF000#16 = 0x4000#16 → decodeWord w = .ok (.sneImm (w.extractLsb' 8 4) (w.extractLsb' 0 8))) ∧
    (w &&& 0xF000#16 = 0x5000#16 → decodeWord w = .ok (.seReg (w.extractLsb' 8 4) (w.extractLsb' 4 4))) ∧
    (w &&& 0xF000#16 = 0x9000#16 → decodeWord w = .ok (.sneReg (w.extractLsb' 8 4) (w.extractLsb' 4 4))) ∧
    (w &&& 0xF000#16 = 0x6000#16 → decodeWord w = .ok (.ldImm (w.extractLsb' 8 4) (w.extractLsb' 0 8))) ∧
    (w &&& 0xF000#16 = 0x7000#16 → decodeWord w = .ok (.addImm (w.extractLsb' 8 4) (w.extractLsb' 0 8))) ∧
    (w &&& 0xF00F#16 = 0x8000#16 → decodeWord w = .ok (.ldReg (w.extractLsb' 8 4) (w.extractLsb' 4 4))) ∧
    (w &&& 0xF00F#16 = 0x8001#16 → decodeWord w = .ok (.orReg (w.extractLsb' 8 4) (w.extractLsb' 4 4))) ∧
    (w &&& 0xF00F#16 = 0x8002#16 → decodeWord w = .ok (.andReg (w.extractLsb' 8 4) (w.extractLsb' 4 4))) ∧
    (w &&& 0xF00F#16 = 0x8003#16 → decodeWord w = .ok (.xorReg (w.extractLsb' 8 4) (w.extractLsb' 4 4))) ∧
    (w &&& 0xF00F#16 = 0x8004#16 → decodeWord w = .ok (.addReg (w.extractLsb' 8 4) (w.extractLsb' 4 4))) ∧
    (w &&& 0xF00F#16 = 0x8005#16 → decodeWord w = .ok (.subReg (w.extractLsb' 8 4) (w.extractLsb' 4 4))) ∧
    (w &&& 0xF00F#16 = 0x8007#16 → decodeWord w = .ok (.subnReg (w.extractLsb' 8 4) (w.extractLsb' 4 4))) ∧
    (w &&& 0xF00F#16 = 0x8006#16 → decodeWord w = .ok (.shrReg (w.extractLsb' 8 4) (w.extractLsb' 4 4))) ∧
    (w &&& 0xF00F#16 = 0x800E#16 → decodeWord w = .ok (.shlReg (w.extractLsb' 8 4) (w.extractLsb' 4 4))) ∧
    (w &&& 0xF000#16 = 0xA000#16 → decodeWord w = .ok (.ldI (w.extractLsb' 0 12))) ∧
    (w &&& 0xF000#16 = 0xB000#16 → decodeWord w = .ok (.jpV0 (w.extractLsb' 0 12))) ∧
    (w &&& 0xF000#16 = 0xC000#16 → decodeWord w = .ok (.rnd (w.extractLsb' 8 4) (w.extractLsb' 0 8))) ∧
    (w &&& 0xF000#16 = 0xD000#16 →
      decodeWord w = .ok (.drw (w.extractLsb' 8 4) (w.extractLsb' 4 4) (w.extractLsb' 0 4))) ∧
    (w &&& 0xF0FF#16 = 0xE09E#16 → decodeWord w = .ok (.skp (w.extractLsb' 8 4))) ∧
    (w &&& 0xF0FF#16 = 0xE0A1#16 → decodeWord w = .ok (.sknp (w.extractLsb' 8 4))) ∧
    (w &&& 0xF0FF#16 = 0xF007#16 → decodeWord w = .ok (.ldVxDt (w.extractLsb' 8 4))) ∧
    (w &&& 0xF0FF#16 = 0xF015#16 → decodeWord w = .ok (.ldDtVx (w.extractLsb' 8 4))) ∧
    (w &&& 0xF0FF#16 = 0xF018#16 → decodeWord w = .ok (.ldStVx (w.extractLsb' 8 4))) ∧
    (w &&& 0xF0FF#16 = 0xF01E#16 → decodeWord w = .ok (.addI (w.extractLsb' 8 4))) ∧
    (w &&& 0xF0FF#16 = 0xF00A#16 → decodeWord w = .ok (.ldVxK (w.extractLsb' 8 4))) ∧
    (w &&& 0xF0FF#16 = 0xF029#16 → decodeWord w = .ok (.ldF (w.extractLsb' 8 4))) ∧
    (w &&& 0xF0FF#16 = 0xF033#16 → decodeWord w = .ok (.bcd (w.extractLsb' 8 4))) ∧
    (w &&& 0xF0FF#16 = 0xF055#16 → decodeWord w = .ok (.storeRegs (w.extractLsb' 8 4))) ∧
    (w &&& 0xF0FF#16 = 0xF065#16 → decodeWord w = .ok (.loadRegs (w.extractLsb' 8 4)))

/-- The unknown space of R65: exactly the words its table lists, by class and sub-key, and the decoder names the word. -/
def Obligations.UnknownWordsAreExactlyThoseListed : Prop :=
  ∀ w : Word,
    (decodeWord w = .error (.unknownOpcode w) ↔
      (w.extractLsb' 12 4 = 0x0#4 ∧ w.extractLsb' 0 8 ∉ [0x00#8, 0xE0#8, 0xEE#8]) ∨
      (w.extractLsb' 12 4 = 0x8#4 ∧ w.extractLsb' 0 4 ∈ [0x8#4, 0x9#4, 0xA#4, 0xB#4, 0xC#4, 0xD#4, 0xF#4]) ∨
      (w.extractLsb' 12 4 = 0xE#4 ∧ w.extractLsb' 0 8 ∉ [0x9E#8, 0xA1#8]) ∨
      (w.extractLsb' 12 4 = 0xF#4 ∧
        w.extractLsb' 0 8 ∉ [0x07#8, 0x0A#8, 0x15#8, 0x18#8, 0x1E#8, 0x29#8, 0x33#8, 0x55#8, 0x65#8])) ∧
    ((∃ i, decodeWord w = .ok i) ∨ decodeWord w = .error (.unknownOpcode w))

/-- Words written out from the encodings of R66, each with the instruction it stands for (95_test_vectors.md V1, V7 to V11). -/
def Obligations.SampleWordsDecode : Prop :=
  decode [0xA2#8, 0xF0#8] = .ok (.ldI 0x2F0#12, []) ∧
  decode [0x0A#8, 0xE0#8] = .ok (.cls, []) ∧
  decode [0x51#8, 0x21#8] = .ok (.seReg 0x1#4 0x2#4, []) ∧
  decode [0x8F#8, 0x27#8] = .ok (.subnReg 0xF#4 0x2#4, []) ∧
  decode [0xD0#8, 0x1F#8] = .ok (.drw 0x0#4 0x1#4 0xF#4, []) ∧
  decode [0xE3#8, 0xA1#8] = .ok (.sknp 0x3#4, []) ∧
  decode [0xF3#8, 0x55#8] = .ok (.storeRegs 0x3#4, []) ∧
  decode [0x81#8, 0x28#8] = .error (.unknownOpcode 0x8128#16)

/-! ## The instruction cycle (40_instruction_cycle.md) -/

/-- A step runs the decoded instruction: with the core Running and the two bytes at `pc` an instruction, the instruction
cycle is that instruction's effect after the inputs are sampled, the outputs cleared and `pc` advanced by 2 (R80, R84, R86);
and so is the machine's step when the host's next listed action is a cycle (log 1). What a step does with nothing listed is
`StepPerformsTheNextHostAction`. -/
def Obligations.StepRunsDecodedInstruction : Prop :=
  ∀ (s : State) (i : Instr) (keys : Word) (rand : Byte), s.run = .running → s.pc.toNat < 0xFFF →
    decode [s.mem.read s.pc.toNat, s.mem.read (s.pc.toNat + 1)] = .ok (i, []) →
    instructionCycle keys rand s = exec i { s with
      keys := keys, rand := rand, status := .ok, displayDirty := false, report := .nothing, pc := s.pc + 2#16 } ∧
    (∀ rest, s.hostActions = .step keys rand :: rest →
      step s = exec i { s with
        hostActions := rest, keys := keys, rand := rand, status := .ok, displayDirty := false, report := .nothing,
        pc := s.pc + 2#16 })

/-- The fetch of R44 and its error R203: below 0xFFF the big-endian word of two bytes; from 0xFFF on the core halts with `pc`
not advanced and the address reported. The state a failed fetch leaves is D11. -/
def Obligations.FetchIsBigEndianOrOutOfBounds : Prop :=
  ∀ (s : State) (keys : Word) (rand : Byte), s.run = .running →
    (s.pc.toNat < 0xFFF → ∃ iw, fetch s = some iw ∧
      iw.toNat = 256 * (s.mem.read s.pc.toNat).toNat + (s.mem.read (s.pc.toNat + 1)).toNat) ∧
    (0xFFF ≤ s.pc.toNat → ∃ t, instructionCycle keys rand s = .next t ∧
      t.run = .halted ∧ t.haltCause = .outOfBoundsFetch ∧ t.status = .outOfBoundsFetch ∧ t.report = .fetchAddress s.pc ∧
      t.pc = s.pc ∧
      OnlyChanges s t {.run, .haltCause, .status, .report, .displayDirty, .keys, .rand})

/-- An unknown word is skipped and reported, nothing else changes (R87, R207). Rests on D25. -/
def Obligations.UnknownWordIsSkippedAndReported : Prop :=
  ∀ (s : State) (keys : Word) (rand : Byte) (iw : Word), s.run = .running → fetch s = some iw →
    decodeWord iw = .error (.unknownOpcode iw) →
    ∃ t, instructionCycle keys rand s = .next t ∧ t.pc = s.pc + 2#16 ∧ t.status = .unknownOpcode ∧
      t.report = .unknownWord iw s.pc ∧ t.displayDirty = false ∧
      OnlyChanges s t {.pc, .status, .report, .displayDirty, .keys, .rand}

/-- A step in Halted changes no state of the core and answers HaltedError (R81). -/
def Obligations.HaltedStepIsNoOp : Prop :=
  ∀ (s : State) (keys : Word) (rand : Byte), s.run = .halted →
    ∃ t, instructionCycle keys rand s = .next t ∧ t.run = .halted ∧ t.status = .haltedError ∧
      OnlyChanges s t {.status, .displayDirty, .report, .keys, .rand}

/-- The await step (R82): the lowest key that is down now and was up at the previous sample ends the wait; with none the wait
goes on; the sample is kept either way. Rests on D14. -/
def Obligations.AwaitStepStoresLowestPressedKey : Prop :=
  ∀ (s : State) (keys : Word) (rand : Byte), s.run = .awaitKey →
    (∀ k : Nibble, keys.getLsbD k.toNat = true → s.keyPrev.getLsbD k.toNat = false →
      (∀ j < k.toNat, keys.getLsbD j = true → s.keyPrev.getLsbD j = true) →
      ∃ t, instructionCycle keys rand s = .next t ∧ (t.reg s.waitReg).toNat = k.toNat ∧ t.run = .running ∧
        t.status = .ok ∧ t.keyPrev = keys ∧
        OnlyChanges s t {.reg s.waitReg, .run, .keyPrev, .status, .displayDirty, .report, .keys, .rand}) ∧
    ((∀ k < 16, keys.getLsbD k = true → s.keyPrev.getLsbD k = true) →
      ∃ t, instructionCycle keys rand s = .next t ∧ t.status = .awaitingKey ∧ t.keyPrev = keys ∧
        OnlyChanges s t {.keyPrev, .status, .displayDirty, .report, .keys, .rand})

/-- The run-state machine of R89, complete: what a step's status says of the event, in each run state, and where it leads. The
OutOfBoundsAccess row rests on D7, the await rows on D14, the going on after an unknown word on D25, the kept halt cause on D11,
the self-jump halt's place after the jump on D10. -/
def Obligations.StatusAndRunStateFollowTransitionTable : Prop :=
  ∀ (s t : State) (keys : Word) (rand : Byte), instructionCycle keys rand s = .next t →
    (s.run = .halted → t.run = .halted ∧ t.status = .haltedError ∧ t.haltCause = s.haltCause) ∧
    (s.run = .awaitKey → t.haltCause = s.haltCause ∧
      ((t.run = .running ∧ t.status = .ok ∧ ∃ k < 16, keys.getLsbD k = true ∧ s.keyPrev.getLsbD k = false) ∨
       (t.run = .awaitKey ∧ t.status = .awaitingKey ∧
        ∀ k < 16, keys.getLsbD k = true → s.keyPrev.getLsbD k = true))) ∧
    (s.run = .running →
      (t.status = .outOfBoundsFetch ↔ fetch s = none) ∧
      (t.status = .unknownOpcode ↔ ∃ iw, fetch s = some iw ∧ decodeWord iw = .error (.unknownOpcode iw)) ∧
      (t.status = .awaitingKey ↔ ∃ x, Fetches s (.ldVxK x)) ∧
      (t.status = .halt ↔ Fetches s .halt) ∧
      (t.status = .infiniteLoop ↔ ∃ nnn : Addr, Fetches s (.jp nnn) ∧ nnn.toNat = s.pc.toNat) ∧
      (t.status = .stackOverflow ↔ s.sp.val = 16 ∧ ∃ nnn, Fetches s (.call nnn)) ∧
      (t.status = .stackUnderflow ↔ s.sp.val = 0 ∧ Fetches s .ret) ∧
      (t.status = .outOfBoundsAccess ↔ ∃ i, Fetches s i ∧ OutOfRange s i) ∧
      t.status ≠ .haltedError ∧ t.status ≠ .loadError ∧
      (t.run = .awaitKey ↔ t.status = .awaitingKey) ∧
      (t.run = .halted ↔ t.status.isHaltCause = true) ∧
      (t.run = .halted → t.haltCause = t.status) ∧
      (t.run ≠ .halted → t.haltCause = s.haltCause))

/-- A fatal fault is precise: the step has written nothing but the halt, and `pc` is not advanced by a failed fetch and
advanced by 2 otherwise (R208). Rests on D7, D11. -/
def Obligations.FaultsAreHaltedPrecisely : Prop :=
  ∀ (s t : State) (keys : Word) (rand : Byte), s.run = .running → instructionCycle keys rand s = .next t →
    t.endedInFault →
    OnlyChanges s t {.pc, .run, .haltCause, .status, .displayDirty, .report, .keys, .rand} ∧ t.displayDirty = false ∧
    (t.haltCause = .outOfBoundsFetch → t.pc = s.pc) ∧ (t.haltCause ≠ .outOfBoundsFetch → t.pc = s.pc + 2#16)

/-! ## The host's actions (60_exceptions.md, 70_reset_and_hazards.md) -/

/-- `n` ticks take `n` from each timer, floored at 0, in every run state, and change nothing else (R214). Rests on D17; that
the ticks are listed host actions is log 1. -/
def Obligations.TicksCountTimersDown : Prop :=
  ∀ (s : State) (n : Nat) (rest : List HostAction),
    ∃ t, Host.Core.run Sys2Proof.core n { s with hostActions := List.replicate n .tick ++ rest } = .next t ∧
      t.dt.toNat = s.dt.toNat - n ∧ t.st.toNat = s.st.toNat - n ∧ t.hostActions = rest ∧
      OnlyChanges s t {.delay, .sound, .hostActions}

/-- The reset of R230 with the values of R35 and the memory image of R233, whatever state it is applied to. A byte outside the
font and the program is what the last pair of `MEM_INIT` for its address says, and 0x00 where no pair names it (log 4). Rests
on D1, D2 and D19; what a reset keeps is log 13, the reset as a listed action log 1. -/
def Obligations.HostResetBuildsTheResetState : Prop :=
  ∀ (s : State) (a : ResetArgs) (rest : List HostAction), s.hostActions = .reset a :: rest →
    a.program.length ≤ 3584 →
    ∃ t, step s = .next t ∧ (∀ r, t.reg r = 0x00#8) ∧ t.i = 0x0000#16 ∧ t.pc = 0x0200#16 ∧ t.sp.val = 0 ∧
      (∀ k < 16, t.stack[k]? = some 0x0000#16) ∧ t.dt = 0x00#8 ∧ t.st = 0x00#8 ∧
      (∀ y x, cellAt t.disp y x = false) ∧ t.quirks = a.quirks ∧ t.run = .running ∧ t.haltCause = .ok ∧
      t.keyPrev = 0x0000#16 ∧ t.waitReg = 0x0#4 ∧
      (∀ k (h : k < 80), t.mem.read (0x050 + k) = a.font[k]'h) ∧
      (∀ k (h : k < a.program.length), t.mem.read (0x200 + k) = a.program[k]) ∧
      (∀ b < 0x1000, ¬(0x050 ≤ b ∧ b < 0x0A0) → ¬(0x200 ≤ b ∧ b < 0x200 + a.program.length) →
        (∀ before v after, a.memInit = before ++ (b, v) :: after → (∀ c ∈ after, c.1 ≠ b) → t.mem.read b = v) ∧
        ((∀ c ∈ a.memInit, c.1 ≠ b) → t.mem.read b = 0x00#8)) ∧
      (∀ b, 0x1000 ≤ b → t.mem.read b = 0x00#8) ∧
      t.hostActions = rest

/-- LoadError, exactly: a program longer than 3584 bytes yields no machine, any other a machine (R202). The reset as a listed
action is log 1, LoadError as the model's fault log 10 (D32). -/
def Obligations.ResetFailsExactlyOnTooLongProgram : Prop :=
  ∀ (s : State) (a : ResetArgs) (rest : List HostAction), s.hostActions = .reset a :: rest →
    (3584 < a.program.length → step s = .fault .loadError) ∧
    (a.program.length ≤ 3584 → ∃ t, step s = .next t)

/-- The model's state after reset holds the values of R35. Memory reading 0x00 (log 4, log 5, log 6), the quirks (log 7), the
edge policy (log 3) and the ports (log 8) are the model's choices. -/
def Obligations.ResetStateValues : Prop :=
  (∀ r, State.reset.reg r = 0x00#8) ∧ State.reset.i = 0x0000#16 ∧ State.reset.pc = 0x0200#16 ∧ State.reset.sp.val = 0 ∧
  (∀ k < 16, State.reset.stack[k]? = some 0x0000#16) ∧ State.reset.dt = 0x00#8 ∧ State.reset.st = 0x00#8 ∧
  (∀ y x, cellAt State.reset.disp y x = false) ∧ State.reset.run = .running ∧ State.reset.haltCause = .ok ∧
  State.reset.keyPrev = 0x0000#16 ∧ State.reset.waitReg = 0x0#4 ∧ State.reset.soundActive = false ∧
  (∀ a, State.reset.mem.read a = 0x00#8) ∧
  State.reset.quirks = { legacyShift := false, legacyJump := false, autoIncrementIndex := false } ∧
  State.reset.drawEdge = .clip ∧ State.reset.status = .ok ∧ State.reset.displayDirty = false

/-- The state after reset meets the invariant of R34. -/
def Obligations.ResetMeetsInvariant : Prop := State.reset.Inv

/-- The invariant of R34 is kept by every step, whatever action the host performs: `I <= 0x1000`, `pc <= 0x10FE`, live stack
entries at most 0x1000, a halt cause exactly in Halted, and memory in canonical form. The spec marks R34 as derived. -/
def Obligations.StepKeepsInvariant : Prop :=
  ∀ s t : State, s.Inv → step s = .next t → t.Inv

/-- A step always answers a next state, but for a reset, listed or free, with a program that is too long: no instruction stops
the model (R88, R202, R231; log 1, log 2, log 10). -/
def Obligations.StepAnswersUnlessLoadError : Prop :=
  ∀ s : State, (∃ t, step s = .next t) ∨
    (step s = .fault .loadError ∧ ∃ a, 3584 < a.program.length ∧
      ((∃ rest, s.hostActions = .reset a :: rest) ∨ (s.hostActions = [] ∧ Config.freeAction s.actionIndex = .reset a)))

/-- Halted is terminal (R211): whatever steps and ticks the host performs, a halted core stays halted, and but for the timers
and the ports nothing of it changes. That ticks go on is D17; the list of actions is log 1. -/
def Obligations.HaltedIsTerminalUntilReset : Prop :=
  ∀ (s : State) (l rest : List HostAction), s.run = .halted → (∀ a, HostAction.reset a ∉ l) →
    ∃ t, Host.Core.run Sys2Proof.core l.length { s with hostActions := l ++ rest } = .next t ∧ t.run = .halted ∧
      OnlyChanges s t {.delay, .sound, .status, .displayDirty, .report, .keys, .rand, .hostActions}

/-! ## Control flow (41_control_flow.md) -/

/-- HALT (R100): the halt entry with cause Halt, nothing else. That `pc` keeps the advance is D30, the kept cause D11. -/
def Obligations.HaltInstructionHaltsTheCore : Prop :=
  ∀ s : State, ∃ t, exec .halt s = .next t ∧ t.run = .halted ∧ t.haltCause = .halt ∧ t.status = .halt ∧
    OnlyChanges s t {.run, .haltCause, .status}

/-- RET (R101): pops the most recent entry into `pc`; with an empty stack StackUnderflow, which leaves the state
of D11. The property of several calls and returns that R101 quotes is `ReturnsUndoCallsInReverseOrder`. -/
def Obligations.RetPopsStackOrUnderflows : Prop :=
  ∀ s : State,
    (0 < s.sp.val → ∃ t, exec .ret s = .next t ∧ some t.pc = s.stack[s.sp.val - 1]? ∧ t.sp.val = s.sp.val - 1 ∧
      OnlyChanges s t {.pc, .depth}) ∧
    (s.sp.val = 0 → ∃ t, exec .ret s = .next t ∧ t.run = .halted ∧ t.haltCause = .stackUnderflow ∧
      t.status = .stackUnderflow ∧ OnlyChanges s t {.run, .haltCause, .status})

/-- JP NNN (R102): `pc` takes NNN; a jump to the address it was fetched from (two below the advanced `pc`) halts with
InfiniteLoop. That the jump is performed before the halt is D10, the kept cause D11. -/
def Obligations.JumpTakesAddressAndSelfJumpHalts : Prop :=
  ∀ (s : State) (nnn : Addr),
    (nnn.toNat + 2 ≠ s.pc.toNat → ∃ t, exec (.jp nnn) s = .next t ∧ t.pc.toNat = nnn.toNat ∧ OnlyChanges s t {.pc}) ∧
    (nnn.toNat + 2 = s.pc.toNat → ∃ t, exec (.jp nnn) s = .next t ∧ t.pc.toNat = nnn.toNat ∧ t.run = .halted ∧
      t.haltCause = .infiniteLoop ∧ t.status = .infiniteLoop ∧ OnlyChanges s t {.pc, .run, .haltCause, .status})

/-- CALL NNN (R103): pushes the advanced `pc` and jumps; with a full stack StackOverflow and nothing pushed. The capacity 16 is
D3, the state the overflow leaves D11. -/
def Obligations.CallPushesReturnAddressOrOverflows : Prop :=
  ∀ (s : State) (nnn : Addr),
    (s.sp.val < 16 → ∃ t, exec (.call nnn) s = .next t ∧ t.stack[s.sp.val]? = some s.pc ∧ t.sp.val = s.sp.val + 1 ∧
      t.pc.toNat = nnn.toNat ∧ OnlyChanges s t {.stackEntry s.sp.val, .depth, .pc}) ∧
    (s.sp.val = 16 → ∃ t, exec (.call nnn) s = .next t ∧ t.run = .halted ∧ t.haltCause = .stackOverflow ∧
      t.status = .stackOverflow ∧ OnlyChanges s t {.run, .haltCause, .status})

/-- JP V0, NNN (R104): NNN plus register 0 in legacy mode, plus the register NNN[11:8] names in modern mode; the sum is not
reduced and there is no self-jump check. The spec marks the missing reduction as derived. -/
def Obligations.OffsetJumpAddsTheRegisterOfTheMode : Prop :=
  ∀ (s : State) (nnn : Addr), ∃ t, exec (.jpV0 nnn) s = .next t ∧
    (s.quirks.legacyJump = true → t.pc.toNat = nnn.toNat + (s.reg 0x0#4).toNat) ∧
    (s.quirks.legacyJump = false → t.pc.toNat = nnn.toNat + (s.reg (nnn.extractLsb' 8 4)).toNat) ∧
    OnlyChanges s t {.pc}

/-- Stack discipline (the property R101 quotes): after N calls, k returns lead back to where the stack and `pc` stood before
the last k calls; and with the stack empty before, the (N+1)-th return fails with StackUnderflow. The
capacity 16 is D3. -/
def Obligations.ReturnsUndoCallsInReverseOrder : Prop :=
  ∀ (s : State) (l : List Addr), s.sp.val + l.length ≤ 16 →
    (∀ k ≤ l.length, ∃ t u,
      execAll (l.map .call ++ List.replicate k .ret) s = .next t ∧ execAll ((l.take (l.length - k)).map .call) s = .next u ∧
      t.pc = u.pc ∧ t.sp = u.sp) ∧
    (s.sp.val = 0 → ∃ t, execAll (l.map .call ++ List.replicate (l.length + 1) .ret) s = .next t ∧ t.run = .halted ∧
      t.haltCause = .stackUnderflow)

/-! ## Skips (42_skip.md, 47_keypad_timer_random.md) -/

/-- SE and SNE on an immediate and on a register (R110 to R113): `pc` advances by 2 more exactly when the test holds. -/
def Obligations.RegisterSkipsTestEquality : Prop :=
  ∀ (s : State) (x y : Nibble) (nn : Byte),
    (∃ t, exec (.seImm x nn) s = .next t ∧ t.pc = (if s.reg x = nn then s.pc + 2#16 else s.pc) ∧ OnlyChanges s t {.pc}) ∧
    (∃ t, exec (.sneImm x nn) s = .next t ∧ t.pc = (if s.reg x ≠ nn then s.pc + 2#16 else s.pc) ∧ OnlyChanges s t {.pc}) ∧
    (∃ t, exec (.seReg x y) s = .next t ∧ t.pc = (if s.reg x = s.reg y then s.pc + 2#16 else s.pc) ∧
      OnlyChanges s t {.pc}) ∧
    (∃ t, exec (.sneReg x y) s = .next t ∧ t.pc = (if s.reg x ≠ s.reg y then s.pc + 2#16 else s.pc) ∧
      OnlyChanges s t {.pc})

/-- SKP and SKNP (R180, R181): the key the low 4 bits of the register select, its level in the step's sample. The low 4 bits
are D13. -/
def Obligations.KeySkipsTestTheSelectedKey : Prop :=
  ∀ (s : State) (x : Nibble),
    (∃ t, exec (.skp x) s = .next t ∧
      t.pc = (if s.keys.getLsbD ((s.reg x).toNat % 16) = true then s.pc + 2#16 else s.pc) ∧ OnlyChanges s t {.pc}) ∧
    (∃ t, exec (.sknp x) s = .next t ∧
      t.pc = (if s.keys.getLsbD ((s.reg x).toNat % 16) = false then s.pc + 2#16 else s.pc) ∧ OnlyChanges s t {.pc})

/-! ## Immediate and register operations (43_load_add_immediate.md, 44_alu.md) -/

/-- LD Vx, NN and ADD Vx, NN (R120, R121): the sum wraps modulo 256 and no flag is written. -/
def Obligations.ImmediateLoadAndAdd : Prop :=
  ∀ (s : State) (x : Nibble) (nn : Byte),
    (∃ t, exec (.ldImm x nn) s = .next t ∧ t.reg x = nn ∧ OnlyChanges s t {.reg x}) ∧
    (∃ t, exec (.addImm x nn) s = .next t ∧ (t.reg x).toNat = ((s.reg x).toNat + nn.toNat) % 256 ∧
      OnlyChanges s t {.reg x})

/-- LD, OR, AND, XOR Vx, Vy (R130 to R133): the result bit by bit, no flag. -/
def Obligations.MoveAndLogicWriteOnlyTheDestination : Prop :=
  ∀ (s : State) (x y : Nibble),
    (∃ t, exec (.ldReg x y) s = .next t ∧ t.reg x = s.reg y ∧ OnlyChanges s t {.reg x}) ∧
    (∃ t, exec (.orReg x y) s = .next t ∧
      (∀ k, (t.reg x).getLsbD k = ((s.reg x).getLsbD k || (s.reg y).getLsbD k)) ∧ OnlyChanges s t {.reg x}) ∧
    (∃ t, exec (.andReg x y) s = .next t ∧
      (∀ k, (t.reg x).getLsbD k = ((s.reg x).getLsbD k && (s.reg y).getLsbD k)) ∧ OnlyChanges s t {.reg x}) ∧
    (∃ t, exec (.xorReg x y) s = .next t ∧
      (∀ k, (t.reg x).getLsbD k = ((s.reg x).getLsbD k ^^ (s.reg y).getLsbD k)) ∧ OnlyChanges s t {.reg x})

/-- ADD Vx, Vy (R134): `VF` is 1 when the true sum fits in 8 bits and 0 when it does not, written last; the wrapped sum stays
in `x[X]` unless X is 0xF. -/
def Obligations.AddWritesSumThenNoOverflowFlag : Prop :=
  ∀ (s : State) (x y : Nibble), ∃ t, exec (.addReg x y) s = .next t ∧
    (t.reg 0xF#4).toNat = (if (s.reg x).toNat + (s.reg y).toNat ≤ 255 then 1 else 0) ∧
    (x ≠ 0xF#4 → (t.reg x).toNat = ((s.reg x).toNat + (s.reg y).toNat) % 256) ∧
    OnlyChanges s t {.reg x, .reg 0xF#4}

/-- SUB Vx, Vy (R135), all five cases of its table: the flag is written first and the difference reads the registers after it.
The order is D8. -/
def Obligations.SubWritesFlagThenDifference : Prop :=
  ∀ (s : State) (x y : Nibble), ∃ t, exec (.subReg x y) s = .next t ∧ OnlyChanges s t {.reg x, .reg 0xF#4} ∧
    (x ≠ 0xF#4 → y ≠ 0xF#4 →
      (t.reg 0xF#4).toNat = (if (s.reg y).toNat ≤ (s.reg x).toNat then 1 else 0) ∧
      ((t.reg x).toNat : Int) = ((s.reg x).toNat - (s.reg y).toNat : Int) % 256) ∧
    (x = 0xF#4 → y ≠ 0xF#4 →
      ((t.reg 0xF#4).toNat : Int) = ((if (s.reg y).toNat ≤ (s.reg x).toNat then 1 else 0) - (s.reg y).toNat : Int) % 256) ∧
    (x ≠ 0xF#4 → y = 0xF#4 →
      (t.reg 0xF#4).toNat = (if (s.reg y).toNat ≤ (s.reg x).toNat then 1 else 0) ∧
      ((t.reg x).toNat : Int) = ((s.reg x).toNat - (if (s.reg y).toNat ≤ (s.reg x).toNat then 1 else 0) : Int) % 256) ∧
    (x = 0xF#4 → y = 0xF#4 → t.reg 0xF#4 = 0x00#8)

/-- SUBN Vx, Vy (R137), all five cases of its table: the destination is `x[Y]`. The order is D8. -/
def Obligations.SubnWritesFlagThenDifferenceIntoY : Prop :=
  ∀ (s : State) (x y : Nibble), ∃ t, exec (.subnReg x y) s = .next t ∧ OnlyChanges s t {.reg y, .reg 0xF#4} ∧
    (x ≠ 0xF#4 → y ≠ 0xF#4 →
      (t.reg 0xF#4).toNat = (if (s.reg x).toNat ≤ (s.reg y).toNat then 1 else 0) ∧
      ((t.reg y).toNat : Int) = ((s.reg y).toNat - (s.reg x).toNat : Int) % 256) ∧
    (x ≠ 0xF#4 → y = 0xF#4 →
      ((t.reg 0xF#4).toNat : Int) = ((if (s.reg x).toNat ≤ (s.reg y).toNat then 1 else 0) - (s.reg x).toNat : Int) % 256) ∧
    (x = 0xF#4 → y ≠ 0xF#4 →
      (t.reg 0xF#4).toNat = (if (s.reg x).toNat ≤ (s.reg y).toNat then 1 else 0) ∧
      ((t.reg y).toNat : Int) = ((s.reg y).toNat - (if (s.reg x).toNat ≤ (s.reg y).toNat then 1 else 0) : Int) % 256) ∧
    (x = 0xF#4 → y = 0xF#4 → t.reg 0xF#4 = 0x00#8)

/-- SHR Vx, Vy (R136): the value shifted is `x[Y]` with `legacy_shift`, else `x[X]`; `VF` takes its bit 0, `x[X]` its half; with
X = 0xF the final `VF` is 0. The order is D8. -/
def Obligations.ShiftRightHalvesAndKeepsLowBit : Prop :=
  ∀ (s : State) (x y : Nibble), ∃ t, exec (.shrReg x y) s = .next t ∧ OnlyChanges s t {.reg x, .reg 0xF#4} ∧
    (x ≠ 0xF#4 → s.quirks.legacyShift = false →
      (t.reg 0xF#4).toNat = (s.reg x).toNat % 2 ∧ (t.reg x).toNat = (s.reg x).toNat / 2) ∧
    (x ≠ 0xF#4 → s.quirks.legacyShift = true →
      (t.reg 0xF#4).toNat = (s.reg y).toNat % 2 ∧ (t.reg x).toNat = (s.reg y).toNat / 2) ∧
    (x = 0xF#4 → t.reg 0xF#4 = 0x00#8)

/-- SHL Vx, Vy (R138): the value shifted is `x[Y]` with `legacy_shift`, else `x[X]`; `VF` takes its bit 7, `x[X]` its double
modulo 256; with X = 0xF the final `VF` is twice bit 7. The order is D8. -/
def Obligations.ShiftLeftDoublesAndKeepsHighBit : Prop :=
  ∀ (s : State) (x y : Nibble), ∃ t, exec (.shlReg x y) s = .next t ∧ OnlyChanges s t {.reg x, .reg 0xF#4} ∧
    (x ≠ 0xF#4 → s.quirks.legacyShift = false →
      (t.reg 0xF#4).toNat = (s.reg x).toNat / 128 ∧ (t.reg x).toNat = 2 * (s.reg x).toNat % 256) ∧
    (x ≠ 0xF#4 → s.quirks.legacyShift = true →
      (t.reg 0xF#4).toNat = (s.reg y).toNat / 128 ∧ (t.reg x).toNat = 2 * (s.reg y).toNat % 256) ∧
    (x = 0xF#4 → s.quirks.legacyShift = false → (t.reg 0xF#4).toNat = 2 * ((s.reg x).toNat / 128)) ∧
    (x = 0xF#4 → s.quirks.legacyShift = true → (t.reg 0xF#4).toNat = 2 * ((s.reg y).toNat / 128))

/-! ## Index and memory (45_index_memory.md, 20_memory.md) -/

/-- LD I, NNN (R150). -/
def Obligations.LoadIndexTakesAddress : Prop :=
  ∀ (s : State) (nnn : Addr), ∃ t, exec (.ldI nnn) s = .next t ∧ t.i.toNat = nnn.toNat ∧ OnlyChanges s t {.index}

/-- ADD I, Vx (R151): a sum above 0xFFF is reduced modulo 0x1000 and sets `VF` to 1; otherwise `VF` keeps its value, which is
D6. The invariant `I <= 0x1000` of R34 is a premise of the unreduced sum only through the 16-bit width, so none is needed. -/
def Obligations.AddIndexWrapsAndFlagsAboveFFF : Prop :=
  ∀ (s : State) (x : Nibble),
    (s.i.toNat + (s.reg x).toNat ≤ 0xFFF → ∃ t, exec (.addI x) s = .next t ∧
      t.i.toNat = s.i.toNat + (s.reg x).toNat ∧ OnlyChanges s t {.index}) ∧
    (0xFFF < s.i.toNat + (s.reg x).toNat → ∃ t, exec (.addI x) s = .next t ∧
      t.i.toNat = (s.i.toNat + (s.reg x).toNat) % 0x1000 ∧ t.reg 0xF#4 = 0x01#8 ∧
      OnlyChanges s t {.index, .reg 0xF#4})

/-- LD F, Vx (R152): the glyph address, the register used in full, which is D24. -/
def Obligations.LoadGlyphAddress : Prop :=
  ∀ (s : State) (x : Nibble), ∃ t, exec (.ldF x) s = .next t ∧ t.i.toNat = 0x050 + 5 * (s.reg x).toNat ∧
    OnlyChanges s t {.index}

/-- BCD Vx (R153), in range: hundreds, tens and ones at `I`, `I+1`, `I+2`, every other byte and everything else unchanged. The
digit arithmetic is D21; the canonical form of memory is the model's own (log 4). -/
def Obligations.BcdStoresThreeDigits : Prop :=
  ∀ (s : State) (x : Nibble), s.mem.wf = true → s.i.toNat + 2 ≤ 0xFFF →
    ∃ t, exec (.bcd x) s = .next t ∧
      (t.mem.read s.i.toNat).toNat = (s.reg x).toNat / 100 ∧
      (t.mem.read (s.i.toNat + 1)).toNat = (s.reg x).toNat / 10 % 10 ∧
      (t.mem.read (s.i.toNat + 2)).toNat = (s.reg x).toNat % 10 ∧
      (s.reg x).toNat = 100 * (t.mem.read s.i.toNat).toNat + 10 * (t.mem.read (s.i.toNat + 1)).toNat
        + (t.mem.read (s.i.toNat + 2)).toNat ∧
      OnlyChanges s t {.byte s.i.toNat, .byte (s.i.toNat + 1), .byte (s.i.toNat + 2)} ∧ t.mem.wf = true

/-- LD [I], Vx (R154), in range: `x[k]` goes to `I + k` for k from 0 to X, every other byte is unchanged, and `I` advances by
X + 1 exactly with `auto_increment_index`. The range is that of D7; the canonical form of memory is the model's own (log 4). -/
def Obligations.BulkStoreWritesRegistersToMemory : Prop :=
  ∀ (s : State) (x : Nibble), s.mem.wf = true → s.i.toNat + x.toNat ≤ 0xFFF →
    ∃ t, exec (.storeRegs x) s = .next t ∧
      (∀ k : Nibble, k.toNat ≤ x.toNat → t.mem.read (s.i.toNat + k.toNat) = s.reg k) ∧
      t.i.toNat = (if s.quirks.autoIncrementIndex = true then s.i.toNat + x.toNat + 1 else s.i.toNat) ∧
      OnlyChanges s t ({.index} ∪ {p | ∃ k ≤ x.toNat, p = .byte (s.i.toNat + k)}) ∧ t.mem.wf = true

/-- LD Vx, [I] (R155), in range: `x[k]` takes the byte at `I + k` for k from 0 to X, the other registers and all of memory are
unchanged, and `I` advances by X + 1 exactly with `auto_increment_index`. The range is that of D7. -/
def Obligations.BulkLoadReadsRegistersFromMemory : Prop :=
  ∀ (s : State) (x : Nibble), s.i.toNat + x.toNat ≤ 0xFFF →
    ∃ t, exec (.loadRegs x) s = .next t ∧
      (∀ k : Nibble, k.toNat ≤ x.toNat → t.reg k = s.mem.read (s.i.toNat + k.toNat)) ∧
      t.i.toNat = (if s.quirks.autoIncrementIndex = true then s.i.toNat + x.toNat + 1 else s.i.toNat) ∧
      OnlyChanges s t ({.index} ∪ {p | ∃ k : Nibble, k.toNat ≤ x.toNat ∧ p = .reg k})

/-- OutOfBoundsAccess (R206): an address above 0xFFF halts BCD, the bulk transfers and DRW with nothing done, the lowest such
address reported (R156). Rests on D7 and D11; the report is a port of the model (log 8). -/
def Obligations.OutOfRangeAccessHaltsUndone : Prop :=
  ∀ (s : State) (i : Instr), OutOfRange s i →
    ∃ t, exec i s = .next t ∧ t.run = .halted ∧ t.haltCause = .outOfBoundsAccess ∧ t.status = .outOfBoundsAccess ∧
      t.report = .dataAddress (max s.i.toNat 0x1000) ∧ OnlyChanges s t {.run, .haltCause, .status, .report}

/-- A store is seen by the very next fetch (R52, R42): after a bulk store over the bytes at `pc`, the word fetched is the two
registers, the lower-numbered one high. The spec marks R52 as derived. -/
def Obligations.StoreIsSeenByTheNextFetch : Prop :=
  ∀ (s : State) (x k : Nibble), s.mem.wf = true → s.i.toNat + x.toNat ≤ 0xFFF → k.toNat + 1 ≤ x.toNat →
    s.pc.toNat = s.i.toNat + k.toNat →
    ∃ t, exec (.storeRegs x) s = .next t ∧ fetch t = some (wordOf (s.reg k) (s.reg (k + 1#4)))

/-! ## Display (46_display.md) -/

/-- CLS (R170): every cell 0, the step marked as drawing, nothing else. The dirty bit is D23. -/
def Obligations.ClearScreenZeroesEveryCell : Prop :=
  ∀ s : State, ∃ t, exec .cls s = .next t ∧ (∀ y x, cellAt t.disp y x = false) ∧ t.displayDirty = true ∧
    OnlyChanges s t ({.displayDirty} ∪ {p | ∃ y x, p = .cell y x})

/-- DRW Vx, Vy, N (R171), in range, for both edge policies: each cell a 1 bit of the sprite lands on is inverted and no other;
`VF` is 1 when one of them was lit, else 0. Rests on D5, D21, D31; the edge policy is a field of the model (log 3). -/
def Obligations.DrawInvertsExactlyTheSpriteCells : Prop :=
  ∀ (s : State) (x y n : Nibble), (n.toNat = 0 ∨ s.i.toNat + n.toNat - 1 ≤ 0xFFF) →
    ∃ t, exec (.drw x y n) s = .next t ∧
      (∀ row < 32, ∀ col < 64,
        (SpritePixelAt s x y n row col → cellAt t.disp row col = !cellAt s.disp row col) ∧
        (¬SpritePixelAt s x y n row col → cellAt t.disp row col = cellAt s.disp row col)) ∧
      ((∃ row < 32, ∃ col < 64, SpritePixelAt s x y n row col ∧ cellAt s.disp row col = true) → t.reg 0xF#4 = 0x01#8) ∧
      (¬(∃ row < 32, ∃ col < 64, SpritePixelAt s x y n row col ∧ cellAt s.disp row col = true) → t.reg 0xF#4 = 0x00#8) ∧
      t.displayDirty = true ∧
      OnlyChanges s t ({.reg 0xF#4, .displayDirty} ∪ {p | ∃ row col, p = .cell row col})

/-- Drawing the same sprite twice at the same place restores the display, and the second draw reports a collision exactly when
some 1 bit of the sprite lit a cell at the first (a corner case of R171). The coordinates are taken from registers other than
`VF`, which the first draw writes. Rests on D5, D21, D31 and log 3. -/
def Obligations.DrawingTwiceRestoresTheDisplay : Prop :=
  ∀ (s : State) (x y n : Nibble), x ≠ 0xF#4 → y ≠ 0xF#4 → (n.toNat = 0 ∨ s.i.toNat + n.toNat - 1 ≤ 0xFFF) →
    ∃ t u, exec (.drw x y n) s = .next t ∧ exec (.drw x y n) t = .next u ∧ u.disp = s.disp ∧
      ((∃ row < 32, ∃ col < 64, SpritePixelAt s x y n row col ∧ cellAt s.disp row col = false) → u.reg 0xF#4 = 0x01#8) ∧
      (¬(∃ row < 32, ∃ col < 64, SpritePixelAt s x y n row col ∧ cellAt s.disp row col = false) →
        u.reg 0xF#4 = 0x00#8)

/-! ## Keypad, timers, random (47_keypad_timer_random.md) -/

/-- LD Vx, K (R182): enters the wait with this step's key sample as the reference; `x[X]` is not written yet. Rests on D14. -/
def Obligations.KeyWaitSuspendsTheCore : Prop :=
  ∀ (s : State) (x : Nibble), ∃ t, exec (.ldVxK x) s = .next t ∧ t.run = .awaitKey ∧ t.waitReg = x ∧
    t.keyPrev = s.keys ∧ t.status = .awaitingKey ∧ OnlyChanges s t {.run, .waitReg, .keyPrev, .status}

/-- LD Vx, DT (R183): the delay timer into the register; and the value read is the one last written by LD DT, Vx less the
number of ticks since, floored at 0. -/
def Obligations.DelayTimerReadsBackLessTicks : Prop :=
  ∀ (s : State) (x y : Nibble) (n : Nat),
    (∃ t, exec (.ldVxDt x) s = .next t ∧ t.reg x = s.dt ∧ OnlyChanges s t {.reg x}) ∧
    (∃ t u, exec (.ldDtVx y) s = .next t ∧ exec (.ldVxDt x) (Nat.repeat tick n t) = .next u ∧
      (u.reg x).toNat = (s.reg y).toNat - n)

/-- LD DT, Vx and LD ST, Vx (R184, R185); `sound_active` is 1 at once when the register is not 0 and stays 1 until that many
ticks have happened. -/
def Obligations.TimersTakeTheRegister : Prop :=
  ∀ (s : State) (x : Nibble),
    (∃ t, exec (.ldDtVx x) s = .next t ∧ t.dt = s.reg x ∧ OnlyChanges s t {.delay}) ∧
    (∃ t, exec (.ldStVx x) s = .next t ∧ t.st = s.reg x ∧ OnlyChanges s t {.sound} ∧
      ∀ n, ((Nat.repeat tick n t).soundActive = true ↔ n < (s.reg x).toNat))

/-- RND Vx, NN (R186): the step's random byte masked by NN, for every value of that byte. The byte as a free input is D15. -/
def Obligations.RandomByteIsMasked : Prop :=
  ∀ (s : State) (x : Nibble) (nn rand : Byte),
    ∃ t, exec (.rnd x nn) { s with rand := rand } = .next t ∧
      (∀ k, (t.reg x).getLsbD k = (rand.getLsbD k && nn.getLsbD k)) ∧
      OnlyChanges { s with rand := rand } t {.reg x}

/-! ## Whole-machine rules -/

/-- Only CALL pushes and only RET pops (R25): no other instruction changes the stack or its depth. -/
def Obligations.OnlyCallAndRetTouchTheStack : Prop :=
  ∀ (i : Instr) (s t : State), exec i s = .next t → (∀ nnn, i ≠ .call nnn) → i ≠ .ret → t.stack = s.stack ∧ t.sp = s.sp

/-- Only BCD and the bulk store write memory (R57). -/
def Obligations.OnlyBcdAndBulkStoreWriteMemory : Prop :=
  ∀ (i : Instr) (s t : State), exec i s = .next t → (∀ x, i ≠ .bcd x) → (∀ x, i ≠ .storeRegs x) → t.mem = s.mem

/-- Only CLS and DRW touch the display or mark it dirty (R31, R57, R90). The dirty bit is D23. -/
def Obligations.OnlyClsAndDrwTouchTheDisplay : Prop :=
  ∀ (i : Instr) (s t : State), exec i s = .next t → i ≠ .cls → (∀ x y n, i ≠ .drw x y n) →
    t.disp = s.disp ∧ t.displayDirty = s.displayDirty

/-- Who can change `VF` (R22): the six flag writers, ADD I, Vx when its sum exceeds 0xFFF, and an instruction whose destination
is register 0xF. The await step, which can also write it, is no instruction's effect. -/
def Obligations.FlagChangesOnlyByItsWriters : Prop :=
  ∀ (i : Instr) (s t : State), exec i s = .next t → t.reg 0xF#4 ≠ s.reg 0xF#4 →
    (∃ x y, i = .addReg x y ∨ i = .subReg x y ∨ i = .subnReg x y ∨ i = .shrReg x y ∨ i = .shlReg x y) ∨
    (∃ x y n, i = .drw x y n) ∨
    (∃ x, i = .addI x ∧ 0xFFF < s.i.toNat + (s.reg x).toNat) ∨
    (∃ nn, i = .ldImm 0xF#4 nn ∨ i = .addImm 0xF#4 nn ∨ i = .rnd 0xF#4 nn) ∨
    (∃ y, i = .ldReg 0xF#4 y ∨ i = .orReg 0xF#4 y ∨ i = .andReg 0xF#4 y ∨ i = .xorReg 0xF#4 y) ∨
    i = .ldVxDt 0xF#4 ∨ i = .loadRegs 0xF#4

/-- The index register, the delay timer, the sound timer and the key latches are changed only by the instructions the spec
names for each (R23, R26, R27, R33), the index by a bulk transfer only with `auto_increment_index`. -/
def Obligations.IndexTimersAndLatchesChangeOnlyByTheirWriters : Prop :=
  ∀ (i : Instr) (s t : State), exec i s = .next t →
    (t.i ≠ s.i → (∃ nnn, i = .ldI nnn) ∨ (∃ x, i = .addI x ∨ i = .ldF x) ∨
      (s.quirks.autoIncrementIndex = true ∧ ∃ x, i = .storeRegs x ∨ i = .loadRegs x)) ∧
    (t.dt ≠ s.dt → ∃ x, i = .ldDtVx x) ∧ (t.st ≠ s.st → ∃ x, i = .ldStVx x) ∧
    (t.keyPrev ≠ s.keyPrev ∨ t.waitReg ≠ s.waitReg → ∃ x, i = .ldVxK x)

/-- No instruction writes the quirk configuration (R29), the inputs, the open parameter or the model's own fields. -/
def Obligations.ConfigurationAndInputsAreNeverWritten : Prop :=
  ∀ (i : Instr) (s t : State), exec i s = .next t →
    t.quirks = s.quirks ∧ t.drawEdge = s.drawEdge ∧ t.keys = s.keys ∧ t.rand = s.rand ∧ t.hostActions = s.hostActions ∧
    t.actionIndex = s.actionIndex

/-- An instruction other than SKP, SKNP, LD Vx, K and RND ignores the inputs (R32, R186): with other inputs it does the same.
RND ignores the keys and the other three ignore the random byte. -/
def Obligations.InputsMatterOnlyToTheirReaders : Prop :=
  ∀ (i : Instr) (s : State) (keys : Word) (rand : Byte), ∃ t, exec i s = .next t ∧
    ((∀ x nn, i ≠ .rnd x nn) → exec i { s with rand := rand } = .next { t with rand := rand }) ∧
    ((∀ x, i ≠ .skp x) → (∀ x, i ≠ .sknp x) → (∀ x, i ≠ .ldVxK x) →
      exec i { s with keys := keys } = .next { t with keys := keys })

/-- A step of the machine is one action of the host, the oldest listed one or, with none listed, the free one whose turn it is
(R9); a `step` action is the instruction cycle, so that the statements about the cycle are statements about `step`. The list
is log 1, the free actions are log 2. -/
def Obligations.StepPerformsTheNextHostAction : Prop :=
  ∀ s : State,
    (∀ keys rand rest, s.hostActions = .step keys rand :: rest →
      step s = instructionCycle keys rand { s with hostActions := rest }) ∧
    (∀ rest, s.hostActions = .tick :: rest → step s = .next (tick { s with hostActions := rest })) ∧
    (∀ a rest, s.hostActions = .reset a :: rest → step s = hostReset a { s with hostActions := rest }) ∧
    (s.hostActions = [] → step s = perform (Config.freeAction s.actionIndex) { s with actionIndex := s.actionIndex + 1 })

/-- Every interleaving is a run (R9, R92, R245): the run of any length from a state is the listed actions, whatever they are,
followed by as many free ones, each performed in turn until one fails. The free actions are any sequence without end, of which
nothing can be proved (log 2), and no action looks at the list or the counter (log 1). -/
def Obligations.RunIsTheListedThenTheFreeActions : Prop :=
  ∀ (s : State) (n : Nat),
    Host.Core.run Sys2Proof.core (s.hostActions.length + n) s =
      performAll (s.hostActions ++ (List.range n).map fun k => Config.freeAction (s.actionIndex + k))
        { s with hostActions := [], actionIndex := s.actionIndex + n }
end

