-- ==== Sys2Proof/Laws/State.lean ====
section
/-! SUPPORT. One lemma per field per named update of the state, so that no later proof unfolds a record update. -/

namespace Sys2Proof.Machine

/-! ## State.setReg -/

@[simp] theorem State.setReg_v (s : State) (r : Nibble) (b : Byte) : (s.setReg r b).v = s.v.set r.toNat b r.isLt := rfl
@[simp] theorem State.setReg_i (s : State) (r : Nibble) (b : Byte) : (s.setReg r b).i = s.i := rfl
@[simp] theorem State.setReg_pc (s : State) (r : Nibble) (b : Byte) : (s.setReg r b).pc = s.pc := rfl
@[simp] theorem State.setReg_stack (s : State) (r : Nibble) (b : Byte) : (s.setReg r b).stack = s.stack := rfl
@[simp] theorem State.setReg_sp (s : State) (r : Nibble) (b : Byte) : (s.setReg r b).sp = s.sp := rfl
@[simp] theorem State.setReg_dt (s : State) (r : Nibble) (b : Byte) : (s.setReg r b).dt = s.dt := rfl
@[simp] theorem State.setReg_st (s : State) (r : Nibble) (b : Byte) : (s.setReg r b).st = s.st := rfl
@[simp] theorem State.setReg_mem (s : State) (r : Nibble) (b : Byte) : (s.setReg r b).mem = s.mem := rfl
@[simp] theorem State.setReg_disp (s : State) (r : Nibble) (b : Byte) : (s.setReg r b).disp = s.disp := rfl
@[simp] theorem State.setReg_quirks (s : State) (r : Nibble) (b : Byte) : (s.setReg r b).quirks = s.quirks := rfl
@[simp] theorem State.setReg_run (s : State) (r : Nibble) (b : Byte) : (s.setReg r b).run = s.run := rfl
@[simp] theorem State.setReg_haltCause (s : State) (r : Nibble) (b : Byte) : (s.setReg r b).haltCause = s.haltCause := rfl
@[simp] theorem State.setReg_keyPrev (s : State) (r : Nibble) (b : Byte) : (s.setReg r b).keyPrev = s.keyPrev := rfl
@[simp] theorem State.setReg_waitReg (s : State) (r : Nibble) (b : Byte) : (s.setReg r b).waitReg = s.waitReg := rfl
@[simp] theorem State.setReg_status (s : State) (r : Nibble) (b : Byte) : (s.setReg r b).status = s.status := rfl
@[simp] theorem State.setReg_displayDirty (s : State) (r : Nibble) (b : Byte) : (s.setReg r b).displayDirty = s.displayDirty := rfl
@[simp] theorem State.setReg_report (s : State) (r : Nibble) (b : Byte) : (s.setReg r b).report = s.report := rfl
@[simp] theorem State.setReg_keys (s : State) (r : Nibble) (b : Byte) : (s.setReg r b).keys = s.keys := rfl
@[simp] theorem State.setReg_rand (s : State) (r : Nibble) (b : Byte) : (s.setReg r b).rand = s.rand := rfl
@[simp] theorem State.setReg_drawEdge (s : State) (r : Nibble) (b : Byte) : (s.setReg r b).drawEdge = s.drawEdge := rfl
@[simp] theorem State.setReg_hostActions (s : State) (r : Nibble) (b : Byte) : (s.setReg r b).hostActions = s.hostActions := rfl
@[simp] theorem State.setReg_actionIndex (s : State) (r : Nibble) (b : Byte) : (s.setReg r b).actionIndex = s.actionIndex := rfl

/-! ## State.setIndex -/

@[simp] theorem State.setIndex_v (s : State) (w : Word) : (s.setIndex w).v = s.v := rfl
@[simp] theorem State.setIndex_i (s : State) (w : Word) : (s.setIndex w).i = w := rfl
@[simp] theorem State.setIndex_pc (s : State) (w : Word) : (s.setIndex w).pc = s.pc := rfl
@[simp] theorem State.setIndex_stack (s : State) (w : Word) : (s.setIndex w).stack = s.stack := rfl
@[simp] theorem State.setIndex_sp (s : State) (w : Word) : (s.setIndex w).sp = s.sp := rfl
@[simp] theorem State.setIndex_dt (s : State) (w : Word) : (s.setIndex w).dt = s.dt := rfl
@[simp] theorem State.setIndex_st (s : State) (w : Word) : (s.setIndex w).st = s.st := rfl
@[simp] theorem State.setIndex_mem (s : State) (w : Word) : (s.setIndex w).mem = s.mem := rfl
@[simp] theorem State.setIndex_disp (s : State) (w : Word) : (s.setIndex w).disp = s.disp := rfl
@[simp] theorem State.setIndex_quirks (s : State) (w : Word) : (s.setIndex w).quirks = s.quirks := rfl
@[simp] theorem State.setIndex_run (s : State) (w : Word) : (s.setIndex w).run = s.run := rfl
@[simp] theorem State.setIndex_haltCause (s : State) (w : Word) : (s.setIndex w).haltCause = s.haltCause := rfl
@[simp] theorem State.setIndex_keyPrev (s : State) (w : Word) : (s.setIndex w).keyPrev = s.keyPrev := rfl
@[simp] theorem State.setIndex_waitReg (s : State) (w : Word) : (s.setIndex w).waitReg = s.waitReg := rfl
@[simp] theorem State.setIndex_status (s : State) (w : Word) : (s.setIndex w).status = s.status := rfl
@[simp] theorem State.setIndex_displayDirty (s : State) (w : Word) : (s.setIndex w).displayDirty = s.displayDirty := rfl
@[simp] theorem State.setIndex_report (s : State) (w : Word) : (s.setIndex w).report = s.report := rfl
@[simp] theorem State.setIndex_keys (s : State) (w : Word) : (s.setIndex w).keys = s.keys := rfl
@[simp] theorem State.setIndex_rand (s : State) (w : Word) : (s.setIndex w).rand = s.rand := rfl
@[simp] theorem State.setIndex_drawEdge (s : State) (w : Word) : (s.setIndex w).drawEdge = s.drawEdge := rfl
@[simp] theorem State.setIndex_hostActions (s : State) (w : Word) : (s.setIndex w).hostActions = s.hostActions := rfl
@[simp] theorem State.setIndex_actionIndex (s : State) (w : Word) : (s.setIndex w).actionIndex = s.actionIndex := rfl

/-! ## State.setPc -/

@[simp] theorem State.setPc_v (s : State) (w : Word) : (s.setPc w).v = s.v := rfl
@[simp] theorem State.setPc_i (s : State) (w : Word) : (s.setPc w).i = s.i := rfl
@[simp] theorem State.setPc_pc (s : State) (w : Word) : (s.setPc w).pc = w := rfl
@[simp] theorem State.setPc_stack (s : State) (w : Word) : (s.setPc w).stack = s.stack := rfl
@[simp] theorem State.setPc_sp (s : State) (w : Word) : (s.setPc w).sp = s.sp := rfl
@[simp] theorem State.setPc_dt (s : State) (w : Word) : (s.setPc w).dt = s.dt := rfl
@[simp] theorem State.setPc_st (s : State) (w : Word) : (s.setPc w).st = s.st := rfl
@[simp] theorem State.setPc_mem (s : State) (w : Word) : (s.setPc w).mem = s.mem := rfl
@[simp] theorem State.setPc_disp (s : State) (w : Word) : (s.setPc w).disp = s.disp := rfl
@[simp] theorem State.setPc_quirks (s : State) (w : Word) : (s.setPc w).quirks = s.quirks := rfl
@[simp] theorem State.setPc_run (s : State) (w : Word) : (s.setPc w).run = s.run := rfl
@[simp] theorem State.setPc_haltCause (s : State) (w : Word) : (s.setPc w).haltCause = s.haltCause := rfl
@[simp] theorem State.setPc_keyPrev (s : State) (w : Word) : (s.setPc w).keyPrev = s.keyPrev := rfl
@[simp] theorem State.setPc_waitReg (s : State) (w : Word) : (s.setPc w).waitReg = s.waitReg := rfl
@[simp] theorem State.setPc_status (s : State) (w : Word) : (s.setPc w).status = s.status := rfl
@[simp] theorem State.setPc_displayDirty (s : State) (w : Word) : (s.setPc w).displayDirty = s.displayDirty := rfl
@[simp] theorem State.setPc_report (s : State) (w : Word) : (s.setPc w).report = s.report := rfl
@[simp] theorem State.setPc_keys (s : State) (w : Word) : (s.setPc w).keys = s.keys := rfl
@[simp] theorem State.setPc_rand (s : State) (w : Word) : (s.setPc w).rand = s.rand := rfl
@[simp] theorem State.setPc_drawEdge (s : State) (w : Word) : (s.setPc w).drawEdge = s.drawEdge := rfl
@[simp] theorem State.setPc_hostActions (s : State) (w : Word) : (s.setPc w).hostActions = s.hostActions := rfl
@[simp] theorem State.setPc_actionIndex (s : State) (w : Word) : (s.setPc w).actionIndex = s.actionIndex := rfl

/-! ## State.setDelay -/

@[simp] theorem State.setDelay_v (s : State) (b : Byte) : (s.setDelay b).v = s.v := rfl
@[simp] theorem State.setDelay_i (s : State) (b : Byte) : (s.setDelay b).i = s.i := rfl
@[simp] theorem State.setDelay_pc (s : State) (b : Byte) : (s.setDelay b).pc = s.pc := rfl
@[simp] theorem State.setDelay_stack (s : State) (b : Byte) : (s.setDelay b).stack = s.stack := rfl
@[simp] theorem State.setDelay_sp (s : State) (b : Byte) : (s.setDelay b).sp = s.sp := rfl
@[simp] theorem State.setDelay_dt (s : State) (b : Byte) : (s.setDelay b).dt = b := rfl
@[simp] theorem State.setDelay_st (s : State) (b : Byte) : (s.setDelay b).st = s.st := rfl
@[simp] theorem State.setDelay_mem (s : State) (b : Byte) : (s.setDelay b).mem = s.mem := rfl
@[simp] theorem State.setDelay_disp (s : State) (b : Byte) : (s.setDelay b).disp = s.disp := rfl
@[simp] theorem State.setDelay_quirks (s : State) (b : Byte) : (s.setDelay b).quirks = s.quirks := rfl
@[simp] theorem State.setDelay_run (s : State) (b : Byte) : (s.setDelay b).run = s.run := rfl
@[simp] theorem State.setDelay_haltCause (s : State) (b : Byte) : (s.setDelay b).haltCause = s.haltCause := rfl
@[simp] theorem State.setDelay_keyPrev (s : State) (b : Byte) : (s.setDelay b).keyPrev = s.keyPrev := rfl
@[simp] theorem State.setDelay_waitReg (s : State) (b : Byte) : (s.setDelay b).waitReg = s.waitReg := rfl
@[simp] theorem State.setDelay_status (s : State) (b : Byte) : (s.setDelay b).status = s.status := rfl
@[simp] theorem State.setDelay_displayDirty (s : State) (b : Byte) : (s.setDelay b).displayDirty = s.displayDirty := rfl
@[simp] theorem State.setDelay_report (s : State) (b : Byte) : (s.setDelay b).report = s.report := rfl
@[simp] theorem State.setDelay_keys (s : State) (b : Byte) : (s.setDelay b).keys = s.keys := rfl
@[simp] theorem State.setDelay_rand (s : State) (b : Byte) : (s.setDelay b).rand = s.rand := rfl
@[simp] theorem State.setDelay_drawEdge (s : State) (b : Byte) : (s.setDelay b).drawEdge = s.drawEdge := rfl
@[simp] theorem State.setDelay_hostActions (s : State) (b : Byte) : (s.setDelay b).hostActions = s.hostActions := rfl
@[simp] theorem State.setDelay_actionIndex (s : State) (b : Byte) : (s.setDelay b).actionIndex = s.actionIndex := rfl

/-! ## State.setSound -/

@[simp] theorem State.setSound_v (s : State) (b : Byte) : (s.setSound b).v = s.v := rfl
@[simp] theorem State.setSound_i (s : State) (b : Byte) : (s.setSound b).i = s.i := rfl
@[simp] theorem State.setSound_pc (s : State) (b : Byte) : (s.setSound b).pc = s.pc := rfl
@[simp] theorem State.setSound_stack (s : State) (b : Byte) : (s.setSound b).stack = s.stack := rfl
@[simp] theorem State.setSound_sp (s : State) (b : Byte) : (s.setSound b).sp = s.sp := rfl
@[simp] theorem State.setSound_dt (s : State) (b : Byte) : (s.setSound b).dt = s.dt := rfl
@[simp] theorem State.setSound_st (s : State) (b : Byte) : (s.setSound b).st = b := rfl
@[simp] theorem State.setSound_mem (s : State) (b : Byte) : (s.setSound b).mem = s.mem := rfl
@[simp] theorem State.setSound_disp (s : State) (b : Byte) : (s.setSound b).disp = s.disp := rfl
@[simp] theorem State.setSound_quirks (s : State) (b : Byte) : (s.setSound b).quirks = s.quirks := rfl
@[simp] theorem State.setSound_run (s : State) (b : Byte) : (s.setSound b).run = s.run := rfl
@[simp] theorem State.setSound_haltCause (s : State) (b : Byte) : (s.setSound b).haltCause = s.haltCause := rfl
@[simp] theorem State.setSound_keyPrev (s : State) (b : Byte) : (s.setSound b).keyPrev = s.keyPrev := rfl
@[simp] theorem State.setSound_waitReg (s : State) (b : Byte) : (s.setSound b).waitReg = s.waitReg := rfl
@[simp] theorem State.setSound_status (s : State) (b : Byte) : (s.setSound b).status = s.status := rfl
@[simp] theorem State.setSound_displayDirty (s : State) (b : Byte) : (s.setSound b).displayDirty = s.displayDirty := rfl
@[simp] theorem State.setSound_report (s : State) (b : Byte) : (s.setSound b).report = s.report := rfl
@[simp] theorem State.setSound_keys (s : State) (b : Byte) : (s.setSound b).keys = s.keys := rfl
@[simp] theorem State.setSound_rand (s : State) (b : Byte) : (s.setSound b).rand = s.rand := rfl
@[simp] theorem State.setSound_drawEdge (s : State) (b : Byte) : (s.setSound b).drawEdge = s.drawEdge := rfl
@[simp] theorem State.setSound_hostActions (s : State) (b : Byte) : (s.setSound b).hostActions = s.hostActions := rfl
@[simp] theorem State.setSound_actionIndex (s : State) (b : Byte) : (s.setSound b).actionIndex = s.actionIndex := rfl

/-! ## State.setMem -/

@[simp] theorem State.setMem_v (s : State) (m : Memory) : (s.setMem m).v = s.v := rfl
@[simp] theorem State.setMem_i (s : State) (m : Memory) : (s.setMem m).i = s.i := rfl
@[simp] theorem State.setMem_pc (s : State) (m : Memory) : (s.setMem m).pc = s.pc := rfl
@[simp] theorem State.setMem_stack (s : State) (m : Memory) : (s.setMem m).stack = s.stack := rfl
@[simp] theorem State.setMem_sp (s : State) (m : Memory) : (s.setMem m).sp = s.sp := rfl
@[simp] theorem State.setMem_dt (s : State) (m : Memory) : (s.setMem m).dt = s.dt := rfl
@[simp] theorem State.setMem_st (s : State) (m : Memory) : (s.setMem m).st = s.st := rfl
@[simp] theorem State.setMem_mem (s : State) (m : Memory) : (s.setMem m).mem = m := rfl
@[simp] theorem State.setMem_disp (s : State) (m : Memory) : (s.setMem m).disp = s.disp := rfl
@[simp] theorem State.setMem_quirks (s : State) (m : Memory) : (s.setMem m).quirks = s.quirks := rfl
@[simp] theorem State.setMem_run (s : State) (m : Memory) : (s.setMem m).run = s.run := rfl
@[simp] theorem State.setMem_haltCause (s : State) (m : Memory) : (s.setMem m).haltCause = s.haltCause := rfl
@[simp] theorem State.setMem_keyPrev (s : State) (m : Memory) : (s.setMem m).keyPrev = s.keyPrev := rfl
@[simp] theorem State.setMem_waitReg (s : State) (m : Memory) : (s.setMem m).waitReg = s.waitReg := rfl
@[simp] theorem State.setMem_status (s : State) (m : Memory) : (s.setMem m).status = s.status := rfl
@[simp] theorem State.setMem_displayDirty (s : State) (m : Memory) : (s.setMem m).displayDirty = s.displayDirty := rfl
@[simp] theorem State.setMem_report (s : State) (m : Memory) : (s.setMem m).report = s.report := rfl
@[simp] theorem State.setMem_keys (s : State) (m : Memory) : (s.setMem m).keys = s.keys := rfl
@[simp] theorem State.setMem_rand (s : State) (m : Memory) : (s.setMem m).rand = s.rand := rfl
@[simp] theorem State.setMem_drawEdge (s : State) (m : Memory) : (s.setMem m).drawEdge = s.drawEdge := rfl
@[simp] theorem State.setMem_hostActions (s : State) (m : Memory) : (s.setMem m).hostActions = s.hostActions := rfl
@[simp] theorem State.setMem_actionIndex (s : State) (m : Memory) : (s.setMem m).actionIndex = s.actionIndex := rfl

/-! ## State.setDisplay -/

@[simp] theorem State.setDisplay_v (s : State) (d : Display) : (s.setDisplay d).v = s.v := rfl
@[simp] theorem State.setDisplay_i (s : State) (d : Display) : (s.setDisplay d).i = s.i := rfl
@[simp] theorem State.setDisplay_pc (s : State) (d : Display) : (s.setDisplay d).pc = s.pc := rfl
@[simp] theorem State.setDisplay_stack (s : State) (d : Display) : (s.setDisplay d).stack = s.stack := rfl
@[simp] theorem State.setDisplay_sp (s : State) (d : Display) : (s.setDisplay d).sp = s.sp := rfl
@[simp] theorem State.setDisplay_dt (s : State) (d : Display) : (s.setDisplay d).dt = s.dt := rfl
@[simp] theorem State.setDisplay_st (s : State) (d : Display) : (s.setDisplay d).st = s.st := rfl
@[simp] theorem State.setDisplay_mem (s : State) (d : Display) : (s.setDisplay d).mem = s.mem := rfl
@[simp] theorem State.setDisplay_disp (s : State) (d : Display) : (s.setDisplay d).disp = d := rfl
@[simp] theorem State.setDisplay_quirks (s : State) (d : Display) : (s.setDisplay d).quirks = s.quirks := rfl
@[simp] theorem State.setDisplay_run (s : State) (d : Display) : (s.setDisplay d).run = s.run := rfl
@[simp] theorem State.setDisplay_haltCause (s : State) (d : Display) : (s.setDisplay d).haltCause = s.haltCause := rfl
@[simp] theorem State.setDisplay_keyPrev (s : State) (d : Display) : (s.setDisplay d).keyPrev = s.keyPrev := rfl
@[simp] theorem State.setDisplay_waitReg (s : State) (d : Display) : (s.setDisplay d).waitReg = s.waitReg := rfl
@[simp] theorem State.setDisplay_status (s : State) (d : Display) : (s.setDisplay d).status = s.status := rfl
@[simp] theorem State.setDisplay_displayDirty (s : State) (d : Display) : (s.setDisplay d).displayDirty = true := rfl
@[simp] theorem State.setDisplay_report (s : State) (d : Display) : (s.setDisplay d).report = s.report := rfl
@[simp] theorem State.setDisplay_keys (s : State) (d : Display) : (s.setDisplay d).keys = s.keys := rfl
@[simp] theorem State.setDisplay_rand (s : State) (d : Display) : (s.setDisplay d).rand = s.rand := rfl
@[simp] theorem State.setDisplay_drawEdge (s : State) (d : Display) : (s.setDisplay d).drawEdge = s.drawEdge := rfl
@[simp] theorem State.setDisplay_hostActions (s : State) (d : Display) : (s.setDisplay d).hostActions = s.hostActions := rfl
@[simp] theorem State.setDisplay_actionIndex (s : State) (d : Display) : (s.setDisplay d).actionIndex = s.actionIndex := rfl

/-! ## State.setFlag -/

@[simp] theorem State.setFlag_v (s : State) (b : Byte) : (s.setFlag b).v = s.v.set vf.toNat b vf.isLt := rfl
@[simp] theorem State.setFlag_i (s : State) (b : Byte) : (s.setFlag b).i = s.i := rfl
@[simp] theorem State.setFlag_pc (s : State) (b : Byte) : (s.setFlag b).pc = s.pc := rfl
@[simp] theorem State.setFlag_stack (s : State) (b : Byte) : (s.setFlag b).stack = s.stack := rfl
@[simp] theorem State.setFlag_sp (s : State) (b : Byte) : (s.setFlag b).sp = s.sp := rfl
@[simp] theorem State.setFlag_dt (s : State) (b : Byte) : (s.setFlag b).dt = s.dt := rfl
@[simp] theorem State.setFlag_st (s : State) (b : Byte) : (s.setFlag b).st = s.st := rfl
@[simp] theorem State.setFlag_mem (s : State) (b : Byte) : (s.setFlag b).mem = s.mem := rfl
@[simp] theorem State.setFlag_disp (s : State) (b : Byte) : (s.setFlag b).disp = s.disp := rfl
@[simp] theorem State.setFlag_quirks (s : State) (b : Byte) : (s.setFlag b).quirks = s.quirks := rfl
@[simp] theorem State.setFlag_run (s : State) (b : Byte) : (s.setFlag b).run = s.run := rfl
@[simp] theorem State.setFlag_haltCause (s : State) (b : Byte) : (s.setFlag b).haltCause = s.haltCause := rfl
@[simp] theorem State.setFlag_keyPrev (s : State) (b : Byte) : (s.setFlag b).keyPrev = s.keyPrev := rfl
@[simp] theorem State.setFlag_waitReg (s : State) (b : Byte) : (s.setFlag b).waitReg = s.waitReg := rfl
@[simp] theorem State.setFlag_status (s : State) (b : Byte) : (s.setFlag b).status = s.status := rfl
@[simp] theorem State.setFlag_displayDirty (s : State) (b : Byte) : (s.setFlag b).displayDirty = s.displayDirty := rfl
@[simp] theorem State.setFlag_report (s : State) (b : Byte) : (s.setFlag b).report = s.report := rfl
@[simp] theorem State.setFlag_keys (s : State) (b : Byte) : (s.setFlag b).keys = s.keys := rfl
@[simp] theorem State.setFlag_rand (s : State) (b : Byte) : (s.setFlag b).rand = s.rand := rfl
@[simp] theorem State.setFlag_drawEdge (s : State) (b : Byte) : (s.setFlag b).drawEdge = s.drawEdge := rfl
@[simp] theorem State.setFlag_hostActions (s : State) (b : Byte) : (s.setFlag b).hostActions = s.hostActions := rfl
@[simp] theorem State.setFlag_actionIndex (s : State) (b : Byte) : (s.setFlag b).actionIndex = s.actionIndex := rfl

/-! ## haltEntry -/

@[simp] theorem haltEntry_v (c : Status) (s : State) : (haltEntry c s).v = s.v := rfl
@[simp] theorem haltEntry_i (c : Status) (s : State) : (haltEntry c s).i = s.i := rfl
@[simp] theorem haltEntry_pc (c : Status) (s : State) : (haltEntry c s).pc = s.pc := rfl
@[simp] theorem haltEntry_stack (c : Status) (s : State) : (haltEntry c s).stack = s.stack := rfl
@[simp] theorem haltEntry_sp (c : Status) (s : State) : (haltEntry c s).sp = s.sp := rfl
@[simp] theorem haltEntry_dt (c : Status) (s : State) : (haltEntry c s).dt = s.dt := rfl
@[simp] theorem haltEntry_st (c : Status) (s : State) : (haltEntry c s).st = s.st := rfl
@[simp] theorem haltEntry_mem (c : Status) (s : State) : (haltEntry c s).mem = s.mem := rfl
@[simp] theorem haltEntry_disp (c : Status) (s : State) : (haltEntry c s).disp = s.disp := rfl
@[simp] theorem haltEntry_quirks (c : Status) (s : State) : (haltEntry c s).quirks = s.quirks := rfl
@[simp] theorem haltEntry_run (c : Status) (s : State) : (haltEntry c s).run = .halted := rfl
@[simp] theorem haltEntry_haltCause (c : Status) (s : State) : (haltEntry c s).haltCause = c := rfl
@[simp] theorem haltEntry_keyPrev (c : Status) (s : State) : (haltEntry c s).keyPrev = s.keyPrev := rfl
@[simp] theorem haltEntry_waitReg (c : Status) (s : State) : (haltEntry c s).waitReg = s.waitReg := rfl
@[simp] theorem haltEntry_status (c : Status) (s : State) : (haltEntry c s).status = c := rfl
@[simp] theorem haltEntry_displayDirty (c : Status) (s : State) : (haltEntry c s).displayDirty = s.displayDirty := rfl
@[simp] theorem haltEntry_report (c : Status) (s : State) : (haltEntry c s).report = s.report := rfl
@[simp] theorem haltEntry_keys (c : Status) (s : State) : (haltEntry c s).keys = s.keys := rfl
@[simp] theorem haltEntry_rand (c : Status) (s : State) : (haltEntry c s).rand = s.rand := rfl
@[simp] theorem haltEntry_drawEdge (c : Status) (s : State) : (haltEntry c s).drawEdge = s.drawEdge := rfl
@[simp] theorem haltEntry_hostActions (c : Status) (s : State) : (haltEntry c s).hostActions = s.hostActions := rfl
@[simp] theorem haltEntry_actionIndex (c : Status) (s : State) : (haltEntry c s).actionIndex = s.actionIndex := rfl

/-! ## raise -/

@[simp] theorem raise_v (c : Status) (info : Report) (s : State) : (raise c info s).v = s.v := rfl
@[simp] theorem raise_i (c : Status) (info : Report) (s : State) : (raise c info s).i = s.i := rfl
@[simp] theorem raise_pc (c : Status) (info : Report) (s : State) : (raise c info s).pc = s.pc := rfl
@[simp] theorem raise_stack (c : Status) (info : Report) (s : State) : (raise c info s).stack = s.stack := rfl
@[simp] theorem raise_sp (c : Status) (info : Report) (s : State) : (raise c info s).sp = s.sp := rfl
@[simp] theorem raise_dt (c : Status) (info : Report) (s : State) : (raise c info s).dt = s.dt := rfl
@[simp] theorem raise_st (c : Status) (info : Report) (s : State) : (raise c info s).st = s.st := rfl
@[simp] theorem raise_mem (c : Status) (info : Report) (s : State) : (raise c info s).mem = s.mem := rfl
@[simp] theorem raise_disp (c : Status) (info : Report) (s : State) : (raise c info s).disp = s.disp := rfl
@[simp] theorem raise_quirks (c : Status) (info : Report) (s : State) : (raise c info s).quirks = s.quirks := rfl
@[simp] theorem raise_run (c : Status) (info : Report) (s : State) : (raise c info s).run = .halted := rfl
@[simp] theorem raise_haltCause (c : Status) (info : Report) (s : State) : (raise c info s).haltCause = c := rfl
@[simp] theorem raise_keyPrev (c : Status) (info : Report) (s : State) : (raise c info s).keyPrev = s.keyPrev := rfl
@[simp] theorem raise_waitReg (c : Status) (info : Report) (s : State) : (raise c info s).waitReg = s.waitReg := rfl
@[simp] theorem raise_status (c : Status) (info : Report) (s : State) : (raise c info s).status = c := rfl
@[simp] theorem raise_displayDirty (c : Status) (info : Report) (s : State) : (raise c info s).displayDirty = s.displayDirty := rfl
@[simp] theorem raise_report (c : Status) (info : Report) (s : State) : (raise c info s).report = info := rfl
@[simp] theorem raise_keys (c : Status) (info : Report) (s : State) : (raise c info s).keys = s.keys := rfl
@[simp] theorem raise_rand (c : Status) (info : Report) (s : State) : (raise c info s).rand = s.rand := rfl
@[simp] theorem raise_drawEdge (c : Status) (info : Report) (s : State) : (raise c info s).drawEdge = s.drawEdge := rfl
@[simp] theorem raise_hostActions (c : Status) (info : Report) (s : State) : (raise c info s).hostActions = s.hostActions := rfl
@[simp] theorem raise_actionIndex (c : Status) (info : Report) (s : State) : (raise c info s).actionIndex = s.actionIndex := rfl

/-! ## advance -/

@[simp] theorem advance_v (s : State) : (advance s).v = s.v := rfl
@[simp] theorem advance_i (s : State) : (advance s).i = s.i := rfl
@[simp] theorem advance_pc (s : State) : (advance s).pc = s.pc + 2#16 := rfl
@[simp] theorem advance_stack (s : State) : (advance s).stack = s.stack := rfl
@[simp] theorem advance_sp (s : State) : (advance s).sp = s.sp := rfl
@[simp] theorem advance_dt (s : State) : (advance s).dt = s.dt := rfl
@[simp] theorem advance_st (s : State) : (advance s).st = s.st := rfl
@[simp] theorem advance_mem (s : State) : (advance s).mem = s.mem := rfl
@[simp] theorem advance_disp (s : State) : (advance s).disp = s.disp := rfl
@[simp] theorem advance_quirks (s : State) : (advance s).quirks = s.quirks := rfl
@[simp] theorem advance_run (s : State) : (advance s).run = s.run := rfl
@[simp] theorem advance_haltCause (s : State) : (advance s).haltCause = s.haltCause := rfl
@[simp] theorem advance_keyPrev (s : State) : (advance s).keyPrev = s.keyPrev := rfl
@[simp] theorem advance_waitReg (s : State) : (advance s).waitReg = s.waitReg := rfl
@[simp] theorem advance_status (s : State) : (advance s).status = s.status := rfl
@[simp] theorem advance_displayDirty (s : State) : (advance s).displayDirty = s.displayDirty := rfl
@[simp] theorem advance_report (s : State) : (advance s).report = s.report := rfl
@[simp] theorem advance_keys (s : State) : (advance s).keys = s.keys := rfl
@[simp] theorem advance_rand (s : State) : (advance s).rand = s.rand := rfl
@[simp] theorem advance_drawEdge (s : State) : (advance s).drawEdge = s.drawEdge := rfl
@[simp] theorem advance_hostActions (s : State) : (advance s).hostActions = s.hostActions := rfl
@[simp] theorem advance_actionIndex (s : State) : (advance s).actionIndex = s.actionIndex := rfl

/-! ## unknownWord -/

@[simp] theorem unknownWord_v (iw : Word) (s : State) : (unknownWord iw s).v = s.v := rfl
@[simp] theorem unknownWord_i (iw : Word) (s : State) : (unknownWord iw s).i = s.i := rfl
@[simp] theorem unknownWord_pc (iw : Word) (s : State) : (unknownWord iw s).pc = s.pc := rfl
@[simp] theorem unknownWord_stack (iw : Word) (s : State) : (unknownWord iw s).stack = s.stack := rfl
@[simp] theorem unknownWord_sp (iw : Word) (s : State) : (unknownWord iw s).sp = s.sp := rfl
@[simp] theorem unknownWord_dt (iw : Word) (s : State) : (unknownWord iw s).dt = s.dt := rfl
@[simp] theorem unknownWord_st (iw : Word) (s : State) : (unknownWord iw s).st = s.st := rfl
@[simp] theorem unknownWord_mem (iw : Word) (s : State) : (unknownWord iw s).mem = s.mem := rfl
@[simp] theorem unknownWord_disp (iw : Word) (s : State) : (unknownWord iw s).disp = s.disp := rfl
@[simp] theorem unknownWord_quirks (iw : Word) (s : State) : (unknownWord iw s).quirks = s.quirks := rfl
@[simp] theorem unknownWord_run (iw : Word) (s : State) : (unknownWord iw s).run = s.run := rfl
@[simp] theorem unknownWord_haltCause (iw : Word) (s : State) : (unknownWord iw s).haltCause = s.haltCause := rfl
@[simp] theorem unknownWord_keyPrev (iw : Word) (s : State) : (unknownWord iw s).keyPrev = s.keyPrev := rfl
@[simp] theorem unknownWord_waitReg (iw : Word) (s : State) : (unknownWord iw s).waitReg = s.waitReg := rfl
@[simp] theorem unknownWord_status (iw : Word) (s : State) : (unknownWord iw s).status = .unknownOpcode := rfl
@[simp] theorem unknownWord_displayDirty (iw : Word) (s : State) : (unknownWord iw s).displayDirty = s.displayDirty := rfl
@[simp] theorem unknownWord_report (iw : Word) (s : State) : (unknownWord iw s).report = .unknownWord iw s.pc0 := rfl
@[simp] theorem unknownWord_keys (iw : Word) (s : State) : (unknownWord iw s).keys = s.keys := rfl
@[simp] theorem unknownWord_rand (iw : Word) (s : State) : (unknownWord iw s).rand = s.rand := rfl
@[simp] theorem unknownWord_drawEdge (iw : Word) (s : State) : (unknownWord iw s).drawEdge = s.drawEdge := rfl
@[simp] theorem unknownWord_hostActions (iw : Word) (s : State) : (unknownWord iw s).hostActions = s.hostActions := rfl
@[simp] theorem unknownWord_actionIndex (iw : Word) (s : State) : (unknownWord iw s).actionIndex = s.actionIndex := rfl

/-! ## enterKeyWait -/

@[simp] theorem enterKeyWait_v (x : Nibble) (s : State) : (enterKeyWait x s).v = s.v := rfl
@[simp] theorem enterKeyWait_i (x : Nibble) (s : State) : (enterKeyWait x s).i = s.i := rfl
@[simp] theorem enterKeyWait_pc (x : Nibble) (s : State) : (enterKeyWait x s).pc = s.pc := rfl
@[simp] theorem enterKeyWait_stack (x : Nibble) (s : State) : (enterKeyWait x s).stack = s.stack := rfl
@[simp] theorem enterKeyWait_sp (x : Nibble) (s : State) : (enterKeyWait x s).sp = s.sp := rfl
@[simp] theorem enterKeyWait_dt (x : Nibble) (s : State) : (enterKeyWait x s).dt = s.dt := rfl
@[simp] theorem enterKeyWait_st (x : Nibble) (s : State) : (enterKeyWait x s).st = s.st := rfl
@[simp] theorem enterKeyWait_mem (x : Nibble) (s : State) : (enterKeyWait x s).mem = s.mem := rfl
@[simp] theorem enterKeyWait_disp (x : Nibble) (s : State) : (enterKeyWait x s).disp = s.disp := rfl
@[simp] theorem enterKeyWait_quirks (x : Nibble) (s : State) : (enterKeyWait x s).quirks = s.quirks := rfl
@[simp] theorem enterKeyWait_run (x : Nibble) (s : State) : (enterKeyWait x s).run = .awaitKey := rfl
@[simp] theorem enterKeyWait_haltCause (x : Nibble) (s : State) : (enterKeyWait x s).haltCause = s.haltCause := rfl
@[simp] theorem enterKeyWait_keyPrev (x : Nibble) (s : State) : (enterKeyWait x s).keyPrev = s.keys := rfl
@[simp] theorem enterKeyWait_waitReg (x : Nibble) (s : State) : (enterKeyWait x s).waitReg = x := rfl
@[simp] theorem enterKeyWait_status (x : Nibble) (s : State) : (enterKeyWait x s).status = .awaitingKey := rfl
@[simp] theorem enterKeyWait_displayDirty (x : Nibble) (s : State) : (enterKeyWait x s).displayDirty = s.displayDirty := rfl
@[simp] theorem enterKeyWait_report (x : Nibble) (s : State) : (enterKeyWait x s).report = s.report := rfl
@[simp] theorem enterKeyWait_keys (x : Nibble) (s : State) : (enterKeyWait x s).keys = s.keys := rfl
@[simp] theorem enterKeyWait_rand (x : Nibble) (s : State) : (enterKeyWait x s).rand = s.rand := rfl
@[simp] theorem enterKeyWait_drawEdge (x : Nibble) (s : State) : (enterKeyWait x s).drawEdge = s.drawEdge := rfl
@[simp] theorem enterKeyWait_hostActions (x : Nibble) (s : State) : (enterKeyWait x s).hostActions = s.hostActions := rfl
@[simp] theorem enterKeyWait_actionIndex (x : Nibble) (s : State) : (enterKeyWait x s).actionIndex = s.actionIndex := rfl

/-! ## sampleInputs -/

@[simp] theorem sampleInputs_v (keys : Word) (rand : Byte) (s : State) : (sampleInputs keys rand s).v = s.v := rfl
@[simp] theorem sampleInputs_i (keys : Word) (rand : Byte) (s : State) : (sampleInputs keys rand s).i = s.i := rfl
@[simp] theorem sampleInputs_pc (keys : Word) (rand : Byte) (s : State) : (sampleInputs keys rand s).pc = s.pc := rfl
@[simp] theorem sampleInputs_stack (keys : Word) (rand : Byte) (s : State) : (sampleInputs keys rand s).stack = s.stack := rfl
@[simp] theorem sampleInputs_sp (keys : Word) (rand : Byte) (s : State) : (sampleInputs keys rand s).sp = s.sp := rfl
@[simp] theorem sampleInputs_dt (keys : Word) (rand : Byte) (s : State) : (sampleInputs keys rand s).dt = s.dt := rfl
@[simp] theorem sampleInputs_st (keys : Word) (rand : Byte) (s : State) : (sampleInputs keys rand s).st = s.st := rfl
@[simp] theorem sampleInputs_mem (keys : Word) (rand : Byte) (s : State) : (sampleInputs keys rand s).mem = s.mem := rfl
@[simp] theorem sampleInputs_disp (keys : Word) (rand : Byte) (s : State) : (sampleInputs keys rand s).disp = s.disp := rfl
@[simp] theorem sampleInputs_quirks (keys : Word) (rand : Byte) (s : State) : (sampleInputs keys rand s).quirks = s.quirks := rfl
@[simp] theorem sampleInputs_run (keys : Word) (rand : Byte) (s : State) : (sampleInputs keys rand s).run = s.run := rfl
@[simp] theorem sampleInputs_haltCause (keys : Word) (rand : Byte) (s : State) : (sampleInputs keys rand s).haltCause = s.haltCause := rfl
@[simp] theorem sampleInputs_keyPrev (keys : Word) (rand : Byte) (s : State) : (sampleInputs keys rand s).keyPrev = s.keyPrev := rfl
@[simp] theorem sampleInputs_waitReg (keys : Word) (rand : Byte) (s : State) : (sampleInputs keys rand s).waitReg = s.waitReg := rfl
@[simp] theorem sampleInputs_status (keys : Word) (rand : Byte) (s : State) : (sampleInputs keys rand s).status = s.status := rfl
@[simp] theorem sampleInputs_displayDirty (keys : Word) (rand : Byte) (s : State) : (sampleInputs keys rand s).displayDirty = s.displayDirty := rfl
@[simp] theorem sampleInputs_report (keys : Word) (rand : Byte) (s : State) : (sampleInputs keys rand s).report = s.report := rfl
@[simp] theorem sampleInputs_keys (keys : Word) (rand : Byte) (s : State) : (sampleInputs keys rand s).keys = keys := rfl
@[simp] theorem sampleInputs_rand (keys : Word) (rand : Byte) (s : State) : (sampleInputs keys rand s).rand = rand := rfl
@[simp] theorem sampleInputs_drawEdge (keys : Word) (rand : Byte) (s : State) : (sampleInputs keys rand s).drawEdge = s.drawEdge := rfl
@[simp] theorem sampleInputs_hostActions (keys : Word) (rand : Byte) (s : State) : (sampleInputs keys rand s).hostActions = s.hostActions := rfl
@[simp] theorem sampleInputs_actionIndex (keys : Word) (rand : Byte) (s : State) : (sampleInputs keys rand s).actionIndex = s.actionIndex := rfl

/-! ## beginStep -/

@[simp] theorem beginStep_v (s : State) : (beginStep s).v = s.v := rfl
@[simp] theorem beginStep_i (s : State) : (beginStep s).i = s.i := rfl
@[simp] theorem beginStep_pc (s : State) : (beginStep s).pc = s.pc := rfl
@[simp] theorem beginStep_stack (s : State) : (beginStep s).stack = s.stack := rfl
@[simp] theorem beginStep_sp (s : State) : (beginStep s).sp = s.sp := rfl
@[simp] theorem beginStep_dt (s : State) : (beginStep s).dt = s.dt := rfl
@[simp] theorem beginStep_st (s : State) : (beginStep s).st = s.st := rfl
@[simp] theorem beginStep_mem (s : State) : (beginStep s).mem = s.mem := rfl
@[simp] theorem beginStep_disp (s : State) : (beginStep s).disp = s.disp := rfl
@[simp] theorem beginStep_quirks (s : State) : (beginStep s).quirks = s.quirks := rfl
@[simp] theorem beginStep_run (s : State) : (beginStep s).run = s.run := rfl
@[simp] theorem beginStep_haltCause (s : State) : (beginStep s).haltCause = s.haltCause := rfl
@[simp] theorem beginStep_keyPrev (s : State) : (beginStep s).keyPrev = s.keyPrev := rfl
@[simp] theorem beginStep_waitReg (s : State) : (beginStep s).waitReg = s.waitReg := rfl
@[simp] theorem beginStep_status (s : State) : (beginStep s).status = .ok := rfl
@[simp] theorem beginStep_displayDirty (s : State) : (beginStep s).displayDirty = false := rfl
@[simp] theorem beginStep_report (s : State) : (beginStep s).report = .nothing := rfl
@[simp] theorem beginStep_keys (s : State) : (beginStep s).keys = s.keys := rfl
@[simp] theorem beginStep_rand (s : State) : (beginStep s).rand = s.rand := rfl
@[simp] theorem beginStep_drawEdge (s : State) : (beginStep s).drawEdge = s.drawEdge := rfl
@[simp] theorem beginStep_hostActions (s : State) : (beginStep s).hostActions = s.hostActions := rfl
@[simp] theorem beginStep_actionIndex (s : State) : (beginStep s).actionIndex = s.actionIndex := rfl

/-! ## haltedStep -/

@[simp] theorem haltedStep_v (s : State) : (haltedStep s).v = s.v := rfl
@[simp] theorem haltedStep_i (s : State) : (haltedStep s).i = s.i := rfl
@[simp] theorem haltedStep_pc (s : State) : (haltedStep s).pc = s.pc := rfl
@[simp] theorem haltedStep_stack (s : State) : (haltedStep s).stack = s.stack := rfl
@[simp] theorem haltedStep_sp (s : State) : (haltedStep s).sp = s.sp := rfl
@[simp] theorem haltedStep_dt (s : State) : (haltedStep s).dt = s.dt := rfl
@[simp] theorem haltedStep_st (s : State) : (haltedStep s).st = s.st := rfl
@[simp] theorem haltedStep_mem (s : State) : (haltedStep s).mem = s.mem := rfl
@[simp] theorem haltedStep_disp (s : State) : (haltedStep s).disp = s.disp := rfl
@[simp] theorem haltedStep_quirks (s : State) : (haltedStep s).quirks = s.quirks := rfl
@[simp] theorem haltedStep_run (s : State) : (haltedStep s).run = s.run := rfl
@[simp] theorem haltedStep_haltCause (s : State) : (haltedStep s).haltCause = s.haltCause := rfl
@[simp] theorem haltedStep_keyPrev (s : State) : (haltedStep s).keyPrev = s.keyPrev := rfl
@[simp] theorem haltedStep_waitReg (s : State) : (haltedStep s).waitReg = s.waitReg := rfl
@[simp] theorem haltedStep_status (s : State) : (haltedStep s).status = .haltedError := rfl
@[simp] theorem haltedStep_displayDirty (s : State) : (haltedStep s).displayDirty = s.displayDirty := rfl
@[simp] theorem haltedStep_report (s : State) : (haltedStep s).report = s.report := rfl
@[simp] theorem haltedStep_keys (s : State) : (haltedStep s).keys = s.keys := rfl
@[simp] theorem haltedStep_rand (s : State) : (haltedStep s).rand = s.rand := rfl
@[simp] theorem haltedStep_drawEdge (s : State) : (haltedStep s).drawEdge = s.drawEdge := rfl
@[simp] theorem haltedStep_hostActions (s : State) : (haltedStep s).hostActions = s.hostActions := rfl
@[simp] theorem haltedStep_actionIndex (s : State) : (haltedStep s).actionIndex = s.actionIndex := rfl

/-! ## tick -/

@[simp] theorem tick_v (s : State) : (tick s).v = s.v := rfl
@[simp] theorem tick_i (s : State) : (tick s).i = s.i := rfl
@[simp] theorem tick_pc (s : State) : (tick s).pc = s.pc := rfl
@[simp] theorem tick_stack (s : State) : (tick s).stack = s.stack := rfl
@[simp] theorem tick_sp (s : State) : (tick s).sp = s.sp := rfl
@[simp] theorem tick_dt (s : State) : (tick s).dt = countDown s.dt := rfl
@[simp] theorem tick_st (s : State) : (tick s).st = countDown s.st := rfl
@[simp] theorem tick_mem (s : State) : (tick s).mem = s.mem := rfl
@[simp] theorem tick_disp (s : State) : (tick s).disp = s.disp := rfl
@[simp] theorem tick_quirks (s : State) : (tick s).quirks = s.quirks := rfl
@[simp] theorem tick_run (s : State) : (tick s).run = s.run := rfl
@[simp] theorem tick_haltCause (s : State) : (tick s).haltCause = s.haltCause := rfl
@[simp] theorem tick_keyPrev (s : State) : (tick s).keyPrev = s.keyPrev := rfl
@[simp] theorem tick_waitReg (s : State) : (tick s).waitReg = s.waitReg := rfl
@[simp] theorem tick_status (s : State) : (tick s).status = s.status := rfl
@[simp] theorem tick_displayDirty (s : State) : (tick s).displayDirty = s.displayDirty := rfl
@[simp] theorem tick_report (s : State) : (tick s).report = s.report := rfl
@[simp] theorem tick_keys (s : State) : (tick s).keys = s.keys := rfl
@[simp] theorem tick_rand (s : State) : (tick s).rand = s.rand := rfl
@[simp] theorem tick_drawEdge (s : State) : (tick s).drawEdge = s.drawEdge := rfl
@[simp] theorem tick_hostActions (s : State) : (tick s).hostActions = s.hostActions := rfl
@[simp] theorem tick_actionIndex (s : State) : (tick s).actionIndex = s.actionIndex := rfl

/-! ## skipIf -/

@[simp] theorem skipIf_v (c : Bool) (s : State) : (skipIf c s).v = s.v := rfl
@[simp] theorem skipIf_i (c : Bool) (s : State) : (skipIf c s).i = s.i := rfl
@[simp] theorem skipIf_pc (c : Bool) (s : State) : (skipIf c s).pc = if c then s.pc + 2#16 else s.pc := rfl
@[simp] theorem skipIf_stack (c : Bool) (s : State) : (skipIf c s).stack = s.stack := rfl
@[simp] theorem skipIf_sp (c : Bool) (s : State) : (skipIf c s).sp = s.sp := rfl
@[simp] theorem skipIf_dt (c : Bool) (s : State) : (skipIf c s).dt = s.dt := rfl
@[simp] theorem skipIf_st (c : Bool) (s : State) : (skipIf c s).st = s.st := rfl
@[simp] theorem skipIf_mem (c : Bool) (s : State) : (skipIf c s).mem = s.mem := rfl
@[simp] theorem skipIf_disp (c : Bool) (s : State) : (skipIf c s).disp = s.disp := rfl
@[simp] theorem skipIf_quirks (c : Bool) (s : State) : (skipIf c s).quirks = s.quirks := rfl
@[simp] theorem skipIf_run (c : Bool) (s : State) : (skipIf c s).run = s.run := rfl
@[simp] theorem skipIf_haltCause (c : Bool) (s : State) : (skipIf c s).haltCause = s.haltCause := rfl
@[simp] theorem skipIf_keyPrev (c : Bool) (s : State) : (skipIf c s).keyPrev = s.keyPrev := rfl
@[simp] theorem skipIf_waitReg (c : Bool) (s : State) : (skipIf c s).waitReg = s.waitReg := rfl
@[simp] theorem skipIf_status (c : Bool) (s : State) : (skipIf c s).status = s.status := rfl
@[simp] theorem skipIf_displayDirty (c : Bool) (s : State) : (skipIf c s).displayDirty = s.displayDirty := rfl
@[simp] theorem skipIf_report (c : Bool) (s : State) : (skipIf c s).report = s.report := rfl
@[simp] theorem skipIf_keys (c : Bool) (s : State) : (skipIf c s).keys = s.keys := rfl
@[simp] theorem skipIf_rand (c : Bool) (s : State) : (skipIf c s).rand = s.rand := rfl
@[simp] theorem skipIf_drawEdge (c : Bool) (s : State) : (skipIf c s).drawEdge = s.drawEdge := rfl
@[simp] theorem skipIf_hostActions (c : Bool) (s : State) : (skipIf c s).hostActions = s.hostActions := rfl
@[simp] theorem skipIf_actionIndex (c : Bool) (s : State) : (skipIf c s).actionIndex = s.actionIndex := rfl

/-! ## State.copyForShift -/

@[simp] theorem State.copyForShift_i (s : State) (x y : Nibble) : (s.copyForShift x y).i = s.i := by unfold State.copyForShift; split <;> rfl
@[simp] theorem State.copyForShift_pc (s : State) (x y : Nibble) : (s.copyForShift x y).pc = s.pc := by unfold State.copyForShift; split <;> rfl
@[simp] theorem State.copyForShift_stack (s : State) (x y : Nibble) : (s.copyForShift x y).stack = s.stack := by unfold State.copyForShift; split <;> rfl
@[simp] theorem State.copyForShift_sp (s : State) (x y : Nibble) : (s.copyForShift x y).sp = s.sp := by unfold State.copyForShift; split <;> rfl
@[simp] theorem State.copyForShift_dt (s : State) (x y : Nibble) : (s.copyForShift x y).dt = s.dt := by unfold State.copyForShift; split <;> rfl
@[simp] theorem State.copyForShift_st (s : State) (x y : Nibble) : (s.copyForShift x y).st = s.st := by unfold State.copyForShift; split <;> rfl
@[simp] theorem State.copyForShift_mem (s : State) (x y : Nibble) : (s.copyForShift x y).mem = s.mem := by unfold State.copyForShift; split <;> rfl
@[simp] theorem State.copyForShift_disp (s : State) (x y : Nibble) : (s.copyForShift x y).disp = s.disp := by unfold State.copyForShift; split <;> rfl
@[simp] theorem State.copyForShift_quirks (s : State) (x y : Nibble) : (s.copyForShift x y).quirks = s.quirks := by unfold State.copyForShift; split <;> rfl
@[simp] theorem State.copyForShift_run (s : State) (x y : Nibble) : (s.copyForShift x y).run = s.run := by unfold State.copyForShift; split <;> rfl
@[simp] theorem State.copyForShift_haltCause (s : State) (x y : Nibble) : (s.copyForShift x y).haltCause = s.haltCause := by unfold State.copyForShift; split <;> rfl
@[simp] theorem State.copyForShift_keyPrev (s : State) (x y : Nibble) : (s.copyForShift x y).keyPrev = s.keyPrev := by unfold State.copyForShift; split <;> rfl
@[simp] theorem State.copyForShift_waitReg (s : State) (x y : Nibble) : (s.copyForShift x y).waitReg = s.waitReg := by unfold State.copyForShift; split <;> rfl
@[simp] theorem State.copyForShift_status (s : State) (x y : Nibble) : (s.copyForShift x y).status = s.status := by unfold State.copyForShift; split <;> rfl
@[simp] theorem State.copyForShift_displayDirty (s : State) (x y : Nibble) : (s.copyForShift x y).displayDirty = s.displayDirty := by unfold State.copyForShift; split <;> rfl
@[simp] theorem State.copyForShift_report (s : State) (x y : Nibble) : (s.copyForShift x y).report = s.report := by unfold State.copyForShift; split <;> rfl
@[simp] theorem State.copyForShift_keys (s : State) (x y : Nibble) : (s.copyForShift x y).keys = s.keys := by unfold State.copyForShift; split <;> rfl
@[simp] theorem State.copyForShift_rand (s : State) (x y : Nibble) : (s.copyForShift x y).rand = s.rand := by unfold State.copyForShift; split <;> rfl
@[simp] theorem State.copyForShift_drawEdge (s : State) (x y : Nibble) : (s.copyForShift x y).drawEdge = s.drawEdge := by unfold State.copyForShift; split <;> rfl
@[simp] theorem State.copyForShift_hostActions (s : State) (x y : Nibble) : (s.copyForShift x y).hostActions = s.hostActions := by unfold State.copyForShift; split <;> rfl
@[simp] theorem State.copyForShift_actionIndex (s : State) (x y : Nibble) : (s.copyForShift x y).actionIndex = s.actionIndex := by unfold State.copyForShift; split <;> rfl

/-! ## State.autoIncrement -/

@[simp] theorem State.autoIncrement_v (s : State) (x : Nibble) : (s.autoIncrement x).v = s.v := by unfold State.autoIncrement; split <;> rfl
@[simp] theorem State.autoIncrement_i (s : State) (x : Nibble) : (s.autoIncrement x).i = if s.quirks.autoIncrementIndex then s.i + x.setWidth 16 + 1#16 else s.i := by unfold State.autoIncrement; split <;> rfl
@[simp] theorem State.autoIncrement_pc (s : State) (x : Nibble) : (s.autoIncrement x).pc = s.pc := by unfold State.autoIncrement; split <;> rfl
@[simp] theorem State.autoIncrement_stack (s : State) (x : Nibble) : (s.autoIncrement x).stack = s.stack := by unfold State.autoIncrement; split <;> rfl
@[simp] theorem State.autoIncrement_sp (s : State) (x : Nibble) : (s.autoIncrement x).sp = s.sp := by unfold State.autoIncrement; split <;> rfl
@[simp] theorem State.autoIncrement_dt (s : State) (x : Nibble) : (s.autoIncrement x).dt = s.dt := by unfold State.autoIncrement; split <;> rfl
@[simp] theorem State.autoIncrement_st (s : State) (x : Nibble) : (s.autoIncrement x).st = s.st := by unfold State.autoIncrement; split <;> rfl
@[simp] theorem State.autoIncrement_mem (s : State) (x : Nibble) : (s.autoIncrement x).mem = s.mem := by unfold State.autoIncrement; split <;> rfl
@[simp] theorem State.autoIncrement_disp (s : State) (x : Nibble) : (s.autoIncrement x).disp = s.disp := by unfold State.autoIncrement; split <;> rfl
@[simp] theorem State.autoIncrement_quirks (s : State) (x : Nibble) : (s.autoIncrement x).quirks = s.quirks := by unfold State.autoIncrement; split <;> rfl
@[simp] theorem State.autoIncrement_run (s : State) (x : Nibble) : (s.autoIncrement x).run = s.run := by unfold State.autoIncrement; split <;> rfl
@[simp] theorem State.autoIncrement_haltCause (s : State) (x : Nibble) : (s.autoIncrement x).haltCause = s.haltCause := by unfold State.autoIncrement; split <;> rfl
@[simp] theorem State.autoIncrement_keyPrev (s : State) (x : Nibble) : (s.autoIncrement x).keyPrev = s.keyPrev := by unfold State.autoIncrement; split <;> rfl
@[simp] theorem State.autoIncrement_waitReg (s : State) (x : Nibble) : (s.autoIncrement x).waitReg = s.waitReg := by unfold State.autoIncrement; split <;> rfl
@[simp] theorem State.autoIncrement_status (s : State) (x : Nibble) : (s.autoIncrement x).status = s.status := by unfold State.autoIncrement; split <;> rfl
@[simp] theorem State.autoIncrement_displayDirty (s : State) (x : Nibble) : (s.autoIncrement x).displayDirty = s.displayDirty := by unfold State.autoIncrement; split <;> rfl
@[simp] theorem State.autoIncrement_report (s : State) (x : Nibble) : (s.autoIncrement x).report = s.report := by unfold State.autoIncrement; split <;> rfl
@[simp] theorem State.autoIncrement_keys (s : State) (x : Nibble) : (s.autoIncrement x).keys = s.keys := by unfold State.autoIncrement; split <;> rfl
@[simp] theorem State.autoIncrement_rand (s : State) (x : Nibble) : (s.autoIncrement x).rand = s.rand := by unfold State.autoIncrement; split <;> rfl
@[simp] theorem State.autoIncrement_drawEdge (s : State) (x : Nibble) : (s.autoIncrement x).drawEdge = s.drawEdge := by unfold State.autoIncrement; split <;> rfl
@[simp] theorem State.autoIncrement_hostActions (s : State) (x : Nibble) : (s.autoIncrement x).hostActions = s.hostActions := by unfold State.autoIncrement; split <;> rfl
@[simp] theorem State.autoIncrement_actionIndex (s : State) (x : Nibble) : (s.autoIncrement x).actionIndex = s.actionIndex := by unfold State.autoIncrement; split <;> rfl

/-! ## The general registers -/

/-- A register reads what was last written to it. -/
@[simp] theorem State.reg_setReg_self (s : State) (r : Nibble) (b : Byte) : (s.setReg r b).reg r = b := by
  simp [State.reg, State.setReg]

/-- A write of one register leaves the others alone. -/
theorem State.reg_setReg_of_ne (s : State) {r q : Nibble} (b : Byte) (h : q ≠ r) : (s.setReg r b).reg q = s.reg q := by
  have hn : r.toNat ≠ q.toNat := fun e => h (BitVec.eq_of_toNat_eq e.symm)
  simp [State.reg, State.setReg, hn]

/-- Both cases at once. -/
theorem State.reg_setReg (s : State) (r q : Nibble) (b : Byte) :
    (s.setReg r b).reg q = if q = r then b else s.reg q := by
  split
  · next h => subst h; simp
  · next h => exact State.reg_setReg_of_ne s b h

theorem State.setFlag_eq (s : State) (b : Byte) : s.setFlag b = s.setReg vf b := rfl

@[simp] theorem State.reg_setFlag_vf (s : State) (b : Byte) : (s.setFlag b).reg vf = b := by simp [State.setFlag_eq]

theorem State.reg_setFlag_of_ne (s : State) {q : Nibble} (b : Byte) (h : q ≠ vf) : (s.setFlag b).reg q = s.reg q :=
  State.reg_setReg_of_ne s b h

theorem State.reg_setFlag (s : State) (q : Nibble) (b : Byte) :
    (s.setFlag b).reg q = if q = vf then b else s.reg q := State.reg_setReg s vf q b

theorem State.reg_copyForShift (s : State) (x y q : Nibble) :
    (s.copyForShift x y).reg q = if s.quirks.legacyShift = true ∧ q = x then s.reg y else s.reg q := by
  unfold State.copyForShift
  by_cases h : s.quirks.legacyShift = true <;> simp [h, State.reg_setReg]

@[simp] theorem State.setIndex_reg (s : State) (w : Word) (q : Nibble) : (s.setIndex w).reg q = s.reg q := rfl
@[simp] theorem State.setPc_reg (s : State) (w : Word) (q : Nibble) : (s.setPc w).reg q = s.reg q := rfl
@[simp] theorem State.setDelay_reg (s : State) (b : Byte) (q : Nibble) : (s.setDelay b).reg q = s.reg q := rfl
@[simp] theorem State.setSound_reg (s : State) (b : Byte) (q : Nibble) : (s.setSound b).reg q = s.reg q := rfl
@[simp] theorem State.setMem_reg (s : State) (m : Memory) (q : Nibble) : (s.setMem m).reg q = s.reg q := rfl
@[simp] theorem State.setDisplay_reg (s : State) (d : Display) (q : Nibble) : (s.setDisplay d).reg q = s.reg q := rfl
@[simp] theorem haltEntry_reg (c : Status) (s : State) (q : Nibble) : (haltEntry c s).reg q = s.reg q := rfl
@[simp] theorem raise_reg (c : Status) (info : Report) (s : State) (q : Nibble) : (raise c info s).reg q = s.reg q := rfl
@[simp] theorem advance_reg (s : State) (q : Nibble) : (advance s).reg q = s.reg q := rfl
@[simp] theorem unknownWord_reg (iw : Word) (s : State) (q : Nibble) : (unknownWord iw s).reg q = s.reg q := rfl
@[simp] theorem enterKeyWait_reg (x : Nibble) (s : State) (q : Nibble) : (enterKeyWait x s).reg q = s.reg q := rfl
@[simp] theorem sampleInputs_reg (keys : Word) (rand : Byte) (s : State) (q : Nibble) : (sampleInputs keys rand s).reg q = s.reg q := rfl
@[simp] theorem beginStep_reg (s : State) (q : Nibble) : (beginStep s).reg q = s.reg q := rfl
@[simp] theorem haltedStep_reg (s : State) (q : Nibble) : (haltedStep s).reg q = s.reg q := rfl
@[simp] theorem tick_reg (s : State) (q : Nibble) : (tick s).reg q = s.reg q := rfl
@[simp] theorem skipIf_reg (c : Bool) (s : State) (q : Nibble) : (skipIf c s).reg q = s.reg q := rfl
@[simp] theorem State.autoIncrement_reg (s : State) (x : Nibble) (q : Nibble) : (s.autoIncrement x).reg q = s.reg q := by unfold State.autoIncrement; split <;> rfl

end Sys2Proof.Machine
end

