-- ==== Sys2Proof/Laws/Memory.lean ====
section
/-! SUPPORT. Memory: what a write and a read do, and that every memory operation keeps the canonical form. -/

namespace Sys2Proof.Machine

/-! ## The canonical form -/

theorem Memory.wfFrom_cons (lo a : Nat) (v : Byte) (m : Memory) :
    Memory.wfFrom lo ((a, v) :: m) = true ↔
      lo ≤ a ∧ a < Config.memSize ∧ v ≠ Config.memBlank ∧ Memory.wfFrom (a + 1) m = true := by
  simp [Memory.wfFrom, and_assoc]

theorem Memory.wfFrom_mono {lo lo' : Nat} (h : lo' ≤ lo) {m : Memory} (hm : Memory.wfFrom lo m = true) :
    Memory.wfFrom lo' m = true := by
  cases m with
  | nil => rfl
  | cons c m =>
    obtain ⟨a, v⟩ := c
    rw [Memory.wfFrom_cons] at hm ⊢
    exact ⟨le_trans h hm.1, hm.2⟩

/-- Below its first entry a canonical memory lists nothing. -/
theorem Memory.read_below {lo a : Nat} {m : Memory} (hm : Memory.wfFrom lo m = true) (h : a < lo) :
    m.read a = Config.memBlank := by
  induction m generalizing lo with
  | nil => rfl
  | cons c m ih =>
    obtain ⟨b, v⟩ := c
    rw [Memory.wfFrom_cons] at hm
    have hb : a ≠ b := by omega
    simp only [Memory.read, hb, if_false]
    exact ih hm.2.2.2 (by omega)

theorem Memory.put_wfFrom {lo a : Nat} {v : Byte} {m : Memory} (hlo : lo ≤ a) (ha : a < Config.memSize)
    (hm : Memory.wfFrom (a + 1) m = true) : Memory.wfFrom lo (Memory.put a v m) = true := by
  unfold Memory.put
  split
  · exact Memory.wfFrom_mono (by omega) hm
  · next hv => rw [Memory.wfFrom_cons]; exact ⟨hlo, ha, hv, hm⟩

theorem Memory.write_wfFrom {lo a : Nat} {v : Byte} {m : Memory} (hlo : lo ≤ a) (ha : a < Config.memSize)
    (hm : Memory.wfFrom lo m = true) : Memory.wfFrom lo (m.write a v) = true := by
  induction m generalizing lo with
  | nil => exact Memory.put_wfFrom hlo ha rfl
  | cons c m ih =>
    obtain ⟨b, u⟩ := c
    rw [Memory.wfFrom_cons] at hm
    unfold Memory.write
    split
    · next hab => exact Memory.put_wfFrom hlo ha ((Memory.wfFrom_cons ..).2 ⟨hab, hm.2⟩)
    · split
      · next hab => subst hab; exact Memory.put_wfFrom hlo ha hm.2.2.2
      · exact (Memory.wfFrom_cons ..).2 ⟨hm.1, hm.2.1, hm.2.2.1, ih (by omega) hm.2.2.2⟩

/-- A write keeps the canonical form. -/
theorem Memory.write_wf {a : Nat} {v : Byte} {m : Memory} (ha : a < Config.memSize) (hm : m.wf = true) :
    (m.write a v).wf = true := Memory.write_wfFrom (Nat.zero_le a) ha hm

/-- A run of stores inside the memory keeps the canonical form. -/
theorem Memory.storeBytes_wf {l : List Byte} {a : Nat} {m : Memory} (ha : a + l.length ≤ Config.memSize)
    (hm : m.wf = true) : (m.storeBytes a l).wf = true := by
  induction l generalizing a m with
  | nil => exact hm
  | cons b l ih =>
    simp only [List.length_cons] at ha
    exact ih (by omega) (Memory.write_wf (by omega) hm)

theorem Memory.storeCells_wf {l : List (Nat × Byte)} {m : Memory} (hm : m.wf = true) :
    (m.storeCells l).wf = true := by
  induction l generalizing m with
  | nil => exact hm
  | cons c l ih =>
    obtain ⟨a, b⟩ := c
    unfold Memory.storeCells
    split
    · next ha => exact ih (Memory.write_wf ha hm)
    · exact ih hm

/-! ## Read after write -/

theorem Memory.read_put_self {a : Nat} {v : Byte} {m : Memory} (hm : Memory.wfFrom (a + 1) m = true) :
    (Memory.put a v m).read a = v := by
  unfold Memory.put
  split
  · next hv => rw [Memory.read_below hm (by omega), hv]
  · simp [Memory.read]

theorem Memory.read_put_of_ne {a b : Nat} {v : Byte} {m : Memory} (h : b ≠ a) :
    (Memory.put a v m).read b = m.read b := by
  unfold Memory.put
  split
  · rfl
  · simp [Memory.read, h]

theorem Memory.read_write_self_from {lo a : Nat} {v : Byte} {m : Memory} (hlo : lo ≤ a)
    (hm : Memory.wfFrom lo m = true) : (m.write a v).read a = v := by
  induction m generalizing lo with
  | nil => exact Memory.read_put_self rfl
  | cons c m ih =>
    obtain ⟨b, u⟩ := c
    rw [Memory.wfFrom_cons] at hm
    unfold Memory.write
    split
    · next hab => exact Memory.read_put_self ((Memory.wfFrom_cons ..).2 ⟨hab, hm.2⟩)
    · split
      · next hab => subst hab; exact Memory.read_put_self hm.2.2.2
      · next hab => simp only [Memory.read, hab, if_false]; exact ih (by omega) hm.2.2.2

/-- A byte reads what was last written to it (R47). -/
theorem Memory.read_write_self {a : Nat} {v : Byte} {m : Memory} (hm : m.wf = true) : (m.write a v).read a = v :=
  Memory.read_write_self_from (Nat.zero_le a) hm

/-- A write changes exactly its byte (R47). -/
theorem Memory.read_write_of_ne {a b : Nat} {v : Byte} {m : Memory} (h : b ≠ a) : (m.write a v).read b = m.read b := by
  induction m with
  | nil => exact Memory.read_put_of_ne h
  | cons c m ih =>
    obtain ⟨d, u⟩ := c
    unfold Memory.write
    split
    · exact Memory.read_put_of_ne h
    · split
      · next hab => subst hab; rw [Memory.read_put_of_ne h]; simp [Memory.read, h]
      · simp only [Memory.read]; rw [ih]

/-- Outside the stored range every byte is as before. -/
theorem Memory.read_storeBytes_outside {l : List Byte} {a b : Nat} {m : Memory} (h : b < a ∨ a + l.length ≤ b) :
    (m.storeBytes a l).read b = m.read b := by
  induction l generalizing a m with
  | nil => rfl
  | cons c l ih =>
    simp only [List.length_cons] at h
    rw [Memory.storeBytes, ih (by omega), Memory.read_write_of_ne (by omega)]

/-- Inside the stored range every byte is the listed one. -/
theorem Memory.read_storeBytes_inside {l : List Byte} {a k : Nat} {m : Memory} (ha : a + l.length ≤ Config.memSize)
    (hm : m.wf = true) (hk : k < l.length) : (m.storeBytes a l).read (a + k) = l[k] := by
  induction l generalizing a k m with
  | nil => simp at hk
  | cons c l ih =>
    simp only [List.length_cons] at ha hk
    have hw : (m.write a c).wf = true := Memory.write_wf (by omega) hm
    rw [Memory.storeBytes]
    cases k with
    | zero =>
      rw [Memory.read_storeBytes_outside (by omega)]
      exact Memory.read_write_self hm
    | succ k =>
      have := ih (a := a + 1) (k := k) (by omega) hw (by omega)
      rw [show a + (k + 1) = a + 1 + k by omega, this, List.getElem_cons_succ]

/-- No byte outside the memory is listed, so each reads as an unlisted one. -/
theorem Memory.read_outside {a : Nat} {m : Memory} (hm : m.wf = true) (h : Config.memSize ≤ a) : m.read a = Config.memBlank := by
  have from_lo : ∀ lo, Memory.wfFrom lo m = true → m.read a = Config.memBlank := by
    clear hm
    induction m with
    | nil => intro _ _; rfl
    | cons c m ih =>
      intro lo hw
      obtain ⟨b, v⟩ := c
      obtain ⟨-, hb, -, hrest⟩ := (Memory.wfFrom_cons lo b v m).1 hw
      rw [Memory.read, if_neg (by omega)]
      exact ih _ hrest
  exact from_lo 0 hm

/-- An address no pair names keeps its byte. -/
theorem Memory.read_storeCells_unnamed {l : List (Nat × Byte)} {a : Nat} {m : Memory} (h : ∀ c ∈ l, c.1 ≠ a) :
    (m.storeCells l).read a = m.read a := by
  induction l generalizing m with
  | nil => rfl
  | cons c l ih =>
    obtain ⟨b, u⟩ := c
    rw [Memory.storeCells, ih (fun c hc => h c (.tail _ hc))]
    split
    · exact Memory.read_write_of_ne (fun e => h (b, u) (.head _) e.symm)
    · rfl

/-- Of the pairs that name an address of the memory the last one counts. -/
theorem Memory.read_storeCells_last {before after : List (Nat × Byte)} {a : Nat} {v : Byte} {m : Memory} (hm : m.wf = true)
    (ha : a < Config.memSize) (h : ∀ c ∈ after, c.1 ≠ a) : (m.storeCells (before ++ (a, v) :: after)).read a = v := by
  induction before generalizing m with
  | nil => rw [List.nil_append, Memory.storeCells, if_pos ha, Memory.read_storeCells_unnamed h, Memory.read_write_self hm]
  | cons c before ih =>
    obtain ⟨b, u⟩ := c
    rw [List.cons_append, Memory.storeCells]
    split
    · next hb => exact ih (Memory.write_wf hb hm)
    · exact ih hm

/-! ## Canonical forms are unique -/

/-- Two canonical memories that read the same are the same list. -/
theorem Memory.ext_of_read {lo : Nat} {m n : Memory} (hm : Memory.wfFrom lo m = true) (hn : Memory.wfFrom lo n = true)
    (h : ∀ a, m.read a = n.read a) : m = n := by
  induction m generalizing lo n with
  | nil =>
    cases n with
    | nil => rfl
    | cons c n =>
      obtain ⟨a, v⟩ := c
      have := h a
      rw [Memory.wfFrom_cons] at hn
      simp only [Memory.read, if_true] at this
      exact absurd this.symm hn.2.2.1
  | cons c m ih =>
    obtain ⟨a, v⟩ := c
    have hm' := (Memory.wfFrom_cons ..).1 hm
    cases n with
    | nil =>
      have := h a
      simp only [Memory.read, if_true] at this
      exact absurd this hm'.2.2.1
    | cons d n =>
      obtain ⟨b, w⟩ := d
      have hn' := (Memory.wfFrom_cons ..).1 hn
      have hab : a = b := by
        rcases Nat.lt_trichotomy a b with hlt | heq | hgt
        · have e := h a
          rw [Memory.read_below (lo := b) ((Memory.wfFrom_cons ..).2 ⟨le_rfl, hn'.2⟩) hlt] at e
          simp only [Memory.read, if_true] at e
          exact absurd e hm'.2.2.1
        · exact heq
        · have e := h b
          rw [Memory.read_below (lo := a) ((Memory.wfFrom_cons ..).2 ⟨le_rfl, hm'.2⟩) hgt] at e
          simp only [Memory.read, if_true] at e
          exact absurd e.symm hn'.2.2.1
      subst hab
      have hv : v = w := by simpa [Memory.read] using h a
      subst hv
      congr 1
      refine ih hm'.2.2.2 hn'.2.2.2 fun x => ?_
      by_cases hx : x = a
      · subst hx
        rw [Memory.read_below hm'.2.2.2 (by omega), Memory.read_below hn'.2.2.2 (by omega)]
      · simpa [Memory.read, hx] using h x

/-! ## Byte lists -/

@[simp] theorem Memory.length_loadBytes (m : Memory) (a n : Nat) : (m.loadBytes a n).length = n := by
  simp [Memory.loadBytes]

@[simp] theorem Memory.getElem_loadBytes (m : Memory) (a n k : Nat) (h : k < (m.loadBytes a n).length) :
    (m.loadBytes a n)[k] = m.read (a + k) := by
  simp [Memory.loadBytes]

@[simp] theorem State.length_regsUpTo (s : State) (x : Nibble) : (s.regsUpTo x).length = x.toNat + 1 := by
  simp [State.regsUpTo]

@[simp] theorem State.getElem_regsUpTo (s : State) (x : Nibble) (k : Nat) (h : k < (s.regsUpTo x).length) :
    (s.regsUpTo x)[k] = s.reg (BitVec.ofNat 4 k) := by
  simp [State.regsUpTo]

@[simp] theorem length_bcdDigits (b : Byte) : (bcdDigits b).length = 3 := rfl

@[simp] theorem length_bytesOf (w : Word) : (bytesOf w).length = 2 := rfl

end Sys2Proof.Machine
end

