-- ==== Sys2Proof/Laws/Display.lean ====
section
/-! SUPPORT. The display: what one flip does, and the closed form of drawing a sprite. The loops of R171 touch no cell twice
(8 < DISPLAY_W, 15 < DISPLAY_H), so each cell is flipped exactly when a lit sprite pixel lands on it. -/

namespace Sys2Proof.Machine

/-! ## Cells -/

theorem cellAt_of_row_ge {d : Display} {y x : Nat} (h : Config.displayH ≤ y) : cellAt d y x = false := by
  simp [cellAt, Nat.not_lt.2 h]

theorem cellAt_of_col_ge {d : Display} {y x : Nat} (h : Config.displayW ≤ x) : cellAt d y x = false := by
  unfold cellAt
  split
  · exact BitVec.getLsbD_of_ge _ _ h
  · rfl

@[simp] theorem cellAt_blankDisplay (y x : Nat) : cellAt blankDisplay y x = false := by
  unfold cellAt blankDisplay
  split
  · simp
  · rfl

theorem cellAt_flipCell_self {d : Display} {y x : Nat} (hy : y < Config.displayH) (hx : x < Config.displayW) :
    cellAt (flipCell d y x) y x = !cellAt d y x := by
  simp [cellAt, flipCell, hy, hx]

theorem cellAt_flipCell_of_ne {d : Display} {y x y' x' : Nat} (h : ¬(y' = y ∧ x' = x)) :
    cellAt (flipCell d y x) y' x' = cellAt d y' x' := by
  unfold flipCell
  split
  · next hy =>
    unfold cellAt
    split
    · next hy' =>
      by_cases e : y' = y
      · subst e
        have hx : ¬x = x' := fun e => h ⟨rfl, e.symm⟩
        simp [BitVec.getLsbD_xor, BitVec.getLsbD_twoPow, hx]
      · rw [Vector.getElem_set_ne]
        exact fun e' => e e'.symm
    · rfl
  · rfl

/-! ## Where a row or column lands -/

theorem place_lt {edge : DrawEdge} {size k p : Nat} (hs : 0 < size) (h : place edge size k = some p) : p < size := by
  unfold place at h
  split at h
  · next hk => cases h; exact hk
  · cases edge <;> simp at h
    exact h ▸ Nat.mod_lt _ hs

theorem place_mod {edge : DrawEdge} {size k p : Nat} (h : place edge size k = some p) : p = k % size := by
  unfold place at h
  split at h
  · next hk => cases h; exact (Nat.mod_eq_of_lt hk).symm
  · cases edge <;> simp at h
    exact h.symm

/-- Two numbers less than a size apart land on different places. -/
theorem place_inj {edge : DrawEdge} {size k k' p : Nat} (hk : k ≤ k') (hd : k' < k + size)
    (h : place edge size k = some p) (h' : place edge size k' = some p) : k = k' := by
  have e : k % size = k' % size := (place_mod h).symm.trans (place_mod h')
  obtain ⟨d, rfl⟩ := Nat.exists_eq_add_of_le hk
  have hm : (k + d) % size = k % size := e.symm
  have hdv : d ≡ 0 [MOD size] := Nat.ModEq.add_left_cancel' k (by simpa [Nat.ModEq] using hm)
  rw [Nat.ModEq, Nat.mod_eq_of_lt (by omega), Nat.zero_mod] at hdv
  omega

/-! ## Drawing -/

/-- Pixel `c` of a sprite row lands on column `x`. -/
def RowHits (edge : DrawEdge) (x0 : Nat) (b : Byte) (n x : Nat) : Prop :=
  ∃ c, c < n ∧ b.getLsbD (7 - c) = true ∧ place edge Config.displayW (x0 + c) = some x

/-- A lit pixel of the sprite lands on the cell of row `y`, column `x`. -/
def SpriteHits (edge : DrawEdge) (x0 y0 : Nat) (rows : List Byte) (y x : Nat) : Prop :=
  ∃ r b, rows[r]? = some b ∧ place edge Config.displayH (y0 + r) = some y ∧ RowHits edge x0 b 8 x

/-- The first `n` pixels of a row: each cell they hit is flipped, no other, and a lit one among them is a collision. -/
theorem drawPixels_spec {edge : DrawEdge} {x0 yy n : Nat} {b : Byte} {acc : Display × Bool}
    (hy : yy < Config.displayH) (hn : n ≤ 8) :
    (∀ y x, (y = yy ∧ RowHits edge x0 b n x →
        cellAt ((List.range n).foldl (fun a c => drawPixel edge x0 yy b c a) acc).1 y x = !cellAt acc.1 y x)
      ∧ (¬(y = yy ∧ RowHits edge x0 b n x) →
        cellAt ((List.range n).foldl (fun a c => drawPixel edge x0 yy b c a) acc).1 y x = cellAt acc.1 y x))
    ∧ (((List.range n).foldl (fun a c => drawPixel edge x0 yy b c a) acc).2 = true ↔
        acc.2 = true ∨ ∃ x, RowHits edge x0 b n x ∧ cellAt acc.1 yy x = true) := by
  induction n with
  | zero => simp [RowHits]
  | succ n ih =>
    obtain ⟨hcell, hcol⟩ := ih (by omega)
    rw [List.range_succ, List.foldl_append, List.foldl_cons, List.foldl_nil]
    generalize (List.range n).foldl (fun a c => drawPixel edge x0 yy b c a) acc = mid at hcell hcol ⊢
    have hstep : ∀ x, RowHits edge x0 b (n + 1) x ↔
        RowHits edge x0 b n x ∨ (b.getLsbD (7 - n) = true ∧ place edge Config.displayW (x0 + n) = some x) := by
      intro x
      constructor
      · rintro ⟨c, hc, hb, hp⟩
        rcases Nat.lt_succ_iff_lt_or_eq.1 hc with h | rfl
        · exact .inl ⟨c, h, hb, hp⟩
        · exact .inr ⟨hb, hp⟩
      · rintro (⟨c, hc, hb, hp⟩ | ⟨hb, hp⟩)
        · exact ⟨c, by omega, hb, hp⟩
        · exact ⟨n, by omega, hb, hp⟩
    unfold drawPixel
    by_cases hb : b.getLsbD (7 - n) = true
    · rw [if_pos hb]
      cases hp : place edge Config.displayW (x0 + n) with
      | none =>
        simp only [hstep, hp, hb, true_and, reduceCtorEq, or_false]
        exact ⟨hcell, hcol⟩
      | some xx =>
        have hxx : xx < Config.displayW := place_lt (by decide) hp
        have hfresh : ¬RowHits edge x0 b n xx := by
          rintro ⟨c, hc, -, hpc⟩
          have hw : Config.displayW = 64 := rfl
          have := place_inj (k := x0 + c) (k' := x0 + n) (by omega) (by omega) hpc hp
          omega
        have hmid : cellAt mid.1 yy xx = cellAt acc.1 yy xx := (hcell yy xx).2 fun h => hfresh h.2
        refine ⟨fun y x => ?_, ?_⟩
        · simp only [hstep, hp, hb, true_and, Option.some.injEq]
          by_cases hyx : y = yy ∧ x = xx
          · obtain ⟨rfl, rfl⟩ := hyx
            constructor
            · intro _; rw [cellAt_flipCell_self hy hxx, hmid]
            · intro h; exact absurd ⟨rfl, .inr rfl⟩ h
          · rw [cellAt_flipCell_of_ne hyx]
            constructor
            · rintro ⟨e, h | h⟩
              · exact (hcell y x).1 ⟨e, h⟩
              · exact absurd ⟨e, h.symm⟩ hyx
            · intro h; exact (hcell y x).2 fun hr => h ⟨hr.1, .inl hr.2⟩
        · simp only [Bool.or_eq_true, hcol, hmid, hstep, hp, hb, true_and, Option.some.injEq]
          constructor
          · rintro ((h | ⟨x, hr, hc⟩) | h)
            · exact .inl h
            · exact .inr ⟨x, .inl hr, hc⟩
            · exact .inr ⟨xx, .inr rfl, h⟩
          · rintro (h | ⟨x, hr | rfl, hc⟩)
            · exact .inl (.inl h)
            · exact .inl (.inr ⟨x, hr, hc⟩)
            · exact .inr hc
    · rw [if_neg hb]
      simp only [hstep, hb, false_and, or_false, Bool.false_eq_true]
      exact ⟨hcell, hcol⟩

/-- A whole sprite row. -/
theorem drawRow_spec {edge : DrawEdge} {x0 yy : Nat} {b : Byte} {acc : Display × Bool}
    (hy : yy < Config.displayH) :
    (∀ y x, (y = yy ∧ RowHits edge x0 b 8 x → cellAt (drawRow edge x0 yy b acc).1 y x = !cellAt acc.1 y x)
      ∧ (¬(y = yy ∧ RowHits edge x0 b 8 x) → cellAt (drawRow edge x0 yy b acc).1 y x = cellAt acc.1 y x))
    ∧ ((drawRow edge x0 yy b acc).2 = true ↔
        acc.2 = true ∨ ∃ x, RowHits edge x0 b 8 x ∧ cellAt acc.1 yy x = true) :=
  drawPixels_spec hy le_rfl

theorem spriteHits_cons {edge : DrawEdge} {x0 y0 : Nat} {b : Byte} {rows : List Byte} {y x : Nat} :
    SpriteHits edge x0 y0 (b :: rows) y x ↔
      (place edge Config.displayH y0 = some y ∧ RowHits edge x0 b 8 x) ∨ SpriteHits edge x0 (y0 + 1) rows y x := by
  constructor
  · rintro ⟨r, b', hr, hp, hh⟩
    cases r with
    | zero =>
      simp only [List.getElem?_cons_zero, Option.some.injEq] at hr
      subst hr
      exact .inl ⟨hp, hh⟩
    | succ r =>
      rw [List.getElem?_cons_succ] at hr
      exact .inr ⟨r, b', hr, by rwa [show y0 + 1 + r = y0 + (r + 1) by omega], hh⟩
  · rintro (⟨hp, hh⟩ | ⟨r, b', hr, hp, hh⟩)
    · exact ⟨0, b, rfl, hp, hh⟩
    · exact ⟨r + 1, b', hr, by rwa [show y0 + (r + 1) = y0 + 1 + r by omega], hh⟩

/-- Drawing a sprite of at most DISPLAY_H rows: each cell a lit pixel lands on is flipped, no other; there is a collision
exactly when one of the flipped cells was lit. -/
theorem drawRows_spec {edge : DrawEdge} {x0 y0 : Nat} {rows : List Byte} {acc : Display × Bool}
    (hl : rows.length ≤ Config.displayH) :
    (∀ y x, (SpriteHits edge x0 y0 rows y x → cellAt (drawRows edge x0 y0 rows acc).1 y x = !cellAt acc.1 y x)
      ∧ (¬SpriteHits edge x0 y0 rows y x → cellAt (drawRows edge x0 y0 rows acc).1 y x = cellAt acc.1 y x))
    ∧ ((drawRows edge x0 y0 rows acc).2 = true ↔
        acc.2 = true ∨ ∃ y x, SpriteHits edge x0 y0 rows y x ∧ cellAt acc.1 y x = true) := by
  induction rows generalizing y0 acc with
  | nil => simp [SpriteHits, drawRows]
  | cons b rows ih =>
    simp only [List.length_cons] at hl
    simp only [drawRows, spriteHits_cons]
    cases hp : place edge Config.displayH y0 with
    | none =>
      simp only [reduceCtorEq, false_and, false_or]
      exact ih (by omega)
    | some yy =>
      have hyy : yy < Config.displayH := place_lt (by decide) hp
      obtain ⟨rcell, rcol⟩ := drawRow_spec (edge := edge) (b := b) (acc := acc) hyy
      obtain ⟨scell, scol⟩ := ih (y0 := y0 + 1) (acc := drawRow edge x0 yy b acc) (by omega)
      have hfresh : ∀ x, ¬SpriteHits edge x0 (y0 + 1) rows yy x := by
        rintro x ⟨r, b', hr, hpr, -⟩
        have hlen : r < rows.length := by
          by_contra hge
          rw [List.getElem?_eq_none (by omega)] at hr
          exact absurd hr (by simp)
        have := place_inj (k := y0) (k' := y0 + 1 + r) (by omega) (by omega) hp hpr
        omega
      simp only [Option.some.injEq]
      refine ⟨fun y x => ⟨?_, ?_⟩, ?_⟩
      · rintro (⟨rfl, hr⟩ | hs)
        · rw [(scell yy x).2 (hfresh x), (rcell yy x).1 ⟨rfl, hr⟩]
        · have hne : y ≠ yy := fun e => hfresh x (e ▸ hs)
          rw [(scell y x).1 hs, (rcell y x).2 fun h => hne h.1]
      · intro h
        rw [(scell y x).2 fun hs => h (.inr hs), (rcell y x).2 fun hr => h (.inl ⟨hr.1.symm, hr.2⟩)]
      · rw [scol, rcol]
        constructor
        · rintro ((h | ⟨x, hr, hc⟩) | ⟨y, x, hs, hc⟩)
          · exact .inl h
          · exact .inr ⟨yy, x, .inl ⟨rfl, hr⟩, hc⟩
          · have hne : y ≠ yy := fun e => hfresh x (e ▸ hs)
            exact .inr ⟨y, x, .inr hs, by rwa [(rcell y x).2 fun h => hne h.1] at hc⟩
        · rintro (h | ⟨y, x, ⟨rfl, hr⟩ | hs, hc⟩)
          · exact .inl (.inl h)
          · exact .inl (.inr ⟨x, hr, hc⟩)
          · have hne : y ≠ yy := fun e => hfresh x (e ▸ hs)
            exact .inr ⟨y, x, hs, by rwa [(rcell y x).2 fun h => hne h.1]⟩

end Sys2Proof.Machine
end

