-- ==== Sys2Proof/Laws/Ops.lean ====
section
/-! SUPPORT. One lemma per shared operation that says once everything it can do. -/

namespace Sys2Proof.Machine

/-! ## Range check (R46) -/

theorem rangeError_none {i : Word} {count : Nat} :
    rangeError i count = none ↔ count = 0 ∨ i.toNat + count ≤ Config.memSize := by
  unfold rangeError
  have hm : Config.maxAddr = 4095 := rfl
  have hs : Config.memSize = 4096 := rfl
  split
  · next h =>
    constructor
    · intro h'; cases h'
    · intro h'; omega
  · next h => exact ⟨fun _ => by omega, fun _ => rfl⟩

theorem rangeError_some {i : Word} {count a : Nat} (h : rangeError i count = some a) :
    0 < count ∧ Config.memSize < i.toNat + count ∧ a = max i.toNat Config.memSize := by
  unfold rangeError at h
  have hm : Config.maxAddr = 4095 := rfl
  have hs : Config.memSize = 4096 := rfl
  split at h
  · next hc => exact ⟨hc.1, by omega, (Option.some.inj h).symm⟩
  · cases h

/-- Every address in range: the effect. -/
theorem accessOr_inRange {count : Nat} {s t : State} (h : count = 0 ∨ s.i.toNat + count ≤ Config.memSize) :
    accessOr count s t = t := by
  simp [accessOr, rangeError_none.2 h]

/-- Some address above 0xFFF: the halt entry, nothing else. -/
theorem accessOr_outOfRange {count : Nat} {s t : State} (h0 : 0 < count) (h : Config.memSize < s.i.toNat + count) :
    accessOr count s t = raise .outOfBoundsAccess (.dataAddress (max s.i.toNat Config.memSize)) s := by
  unfold accessOr
  cases e : rangeError s.i count with
  | none => rcases rangeError_none.1 e with h' | h' <;> omega
  | some a => rw [(rangeError_some e).2.2]

/-- What `accessOr` can answer. -/
theorem accessOr_cases (count : Nat) (s t : State) :
    ((count = 0 ∨ s.i.toNat + count ≤ Config.memSize) ∧ accessOr count s t = t) ∨
    ((0 < count ∧ Config.memSize < s.i.toNat + count) ∧
      accessOr count s t = raise .outOfBoundsAccess (.dataAddress (max s.i.toNat Config.memSize)) s) := by
  by_cases h : count = 0 ∨ s.i.toNat + count ≤ Config.memSize
  · exact .inl ⟨h, accessOr_inRange h⟩
  · exact .inr ⟨by omega, accessOr_outOfRange (by omega) (by omega)⟩

/-! ## Call stack (R25) -/

theorem pushReturn_none {w : Word} {s : State} : pushReturn w s = none ↔ s.sp.val = Config.stackDepth := by
  unfold pushReturn
  have := s.sp.isLt
  split
  · next h => simp; omega
  · next h => simp; omega

theorem pushReturn_some {w : Word} {s t : State} (h : pushReturn w s = some t) :
    ∃ hs : s.sp.val < Config.stackDepth,
      t = { s with stack := s.stack.set s.sp.val w hs, sp := ⟨s.sp.val + 1, Nat.succ_lt_succ hs⟩ } := by
  unfold pushReturn at h
  split at h
  · next hs => exact ⟨hs, (Option.some.inj h).symm⟩
  · cases h

theorem popReturn_none {s : State} : popReturn s = none ↔ s.sp.val = 0 := by
  unfold popReturn
  split
  · next h =>
    constructor
    · intro h'; cases h'
    · intro h'; omega
  · next h => exact ⟨fun _ => by omega, fun _ => rfl⟩

theorem popReturn_some {s t : State} {w : Word} (h : popReturn s = some (w, t)) :
    0 < s.sp.val ∧ ∃ hk : s.sp.val - 1 < Config.stackDepth,
      w = s.stack[s.sp.val - 1]'hk ∧ t = { s with sp := ⟨s.sp.val - 1, Nat.lt_succ_of_lt hk⟩ } := by
  unfold popReturn at h
  split at h
  · next h0 =>
    have hk : s.sp.val - 1 < Config.stackDepth := by have := s.sp.isLt; omega
    have e := Option.some.inj h
    exact ⟨h0, hk, (congrArg Prod.fst e).symm, (congrArg Prod.snd e).symm⟩
  · cases h

/-! ## Bulk register writes (R155) -/

/-- Only the general registers can change. -/
theorem State.setRegsFrom_frame (s : State) (k : Nat) (l : List Byte) :
    ∃ v', s.setRegsFrom k l = { s with v := v' } := by
  induction l generalizing s k with
  | nil => exact ⟨s.v, rfl⟩
  | cons b l ih =>
    obtain ⟨v', h⟩ := ih (s.setReg (BitVec.ofNat 4 k) b) (k + 1)
    exact ⟨v', h⟩

/-- The registers from `k` on take the listed bytes, the others keep theirs. -/
theorem State.reg_setRegsFrom (s : State) (k : Nat) (l : List Byte) (q : Nibble) (hk : k + l.length ≤ 16) :
    (s.setRegsFrom k l).reg q =
      if h : k ≤ q.toNat ∧ q.toNat - k < l.length then l[q.toNat - k]'h.2 else s.reg q := by
  induction l generalizing s k with
  | nil => simp [State.setRegsFrom]
  | cons b l ih =>
    simp only [List.length_cons] at hk
    rw [State.setRegsFrom, ih _ _ (by omega), State.reg_setReg]
    have hq : q = BitVec.ofNat 4 k ↔ q.toNat = k := by
      constructor
      · rintro rfl; simp; omega
      · intro e; apply BitVec.eq_of_toNat_eq; simp; omega
    by_cases h1 : k + 1 ≤ q.toNat ∧ q.toNat - (k + 1) < l.length
    · have h2 : k ≤ q.toNat ∧ q.toNat - k < (b :: l).length := by simp only [List.length_cons]; omega
      rw [dif_pos h1, dif_pos h2]
      have e : q.toNat - k = q.toNat - (k + 1) + 1 := by omega
      simp [e]
    · rw [dif_neg h1]
      by_cases h3 : q.toNat = k
      · have h2 : k ≤ q.toNat ∧ q.toNat - k < (b :: l).length := by simp only [List.length_cons]; omega
        rw [if_pos (hq.2 h3), dif_pos h2]
        simp [h3]
      · have h2 : ¬(k ≤ q.toNat ∧ q.toNat - k < (b :: l).length) := by simp only [List.length_cons]; omega
        rw [if_neg (fun h => h3 (hq.1 h)), dif_neg h2]

/-! ## Key wait (R82) -/

theorem lowestKey_none {down : Word} : lowestKey down = none ↔ ∀ k < 16, down.getLsbD k = false := by
  simp [lowestKey]

theorem lowestKey_some {down : Word} {k : Nibble} (h : lowestKey down = some k) :
    down.getLsbD k.toNat = true ∧ ∀ j < k.toNat, down.getLsbD j = false := by
  simp only [lowestKey, Option.map_eq_some_iff] at h
  obtain ⟨n, hn, rfl⟩ := h
  rw [List.find?_range_eq_some] at hn
  obtain ⟨hd, hm, hlt⟩ := hn
  have hn16 : n < 16 := by simpa using hm
  have e : (BitVec.ofNat 4 n).toNat = n := by simp; omega
  rw [e]
  exact ⟨hd, fun j hj => by simpa using hlt j hj⟩

/-! ## Fetch (R44) -/

theorem fetch_none {s : State} : fetch s = none ↔ 0xFFF ≤ s.pc.toNat := by
  unfold fetch Config.maxAddr
  split
  · next h =>
    constructor
    · intro h'; cases h'
    · intro h'; omega
  · next h => exact ⟨fun _ => by omega, fun _ => rfl⟩

theorem fetch_some {s : State} {iw : Word} (h : fetch s = some iw) :
    s.pc.toNat < 0xFFF ∧ iw = wordOf (s.mem.read s.pc.toNat) (s.mem.read (s.pc.toNat + 1)) := by
  unfold fetch at h
  split at h
  · next hp => exact ⟨hp, (Option.some.inj h).symm⟩
  · cases h

/-! ## The host's reset (R230) -/

/-- A reset image is in canonical form when the program fits. -/
theorem resetImage_wf {a : ResetArgs} (h : a.programFits = true) : (resetImage a).wf = true := by
  have hp : a.program.length ≤ 3584 := of_decide_eq_true h
  unfold resetImage
  refine Memory.storeBytes_wf ?_ (Memory.storeBytes_wf ?_ (Memory.storeCells_wf rfl))
  · simp only [Config.progBase, Config.memSize]; omega
  · rw [Vector.length_toList]; decide

/-- What `hostReset` can answer. -/
theorem hostReset_cases (a : ResetArgs) (s : State) :
    (a.program.length ≤ 3584 ∧ hostReset a s = .next (construct a s)) ∨
    (3584 < a.program.length ∧ hostReset a s = .fault .loadError) := by
  unfold hostReset ResetArgs.programFits Config.progMax
  by_cases h : a.program.length ≤ 3584
  · exact .inl ⟨h, by simp [h]⟩
  · exact .inr ⟨by omega, by simp [h]⟩

end Sys2Proof.Machine
end

