-- ==== Sys2Proof/Laws/Cycle.lean ====
section
/-! SUPPORT. The instruction cycle and the host's actions: what they can answer, and that they neither read nor write the
model's own two fields, the list of actions and the counter of free ones. -/

namespace Sys2Proof.Machine

/-! ## Outcomes -/

/-- No instruction stops the machine. -/
theorem exec_next (i : Instr) (s : State) : ∃ t, exec i s = .next t := by cases i <;> exact ⟨_, rfl⟩

/-- No instruction cycle stops the machine. -/
theorem instructionCycle_next (keys : Word) (rand : Byte) (s : State) : ∃ t, instructionCycle keys rand s = .next t := by
  unfold instructionCycle runningStep executeWord
  split
  · exact ⟨_, rfl⟩
  · exact ⟨_, rfl⟩
  · split
    · exact ⟨_, rfl⟩
    · split
      · exact exec_next ..
      · exact ⟨_, rfl⟩

/-- What an action can answer: a next state, or LoadError for a reset whose program is too long. -/
theorem perform_cases (a : HostAction) (s : State) :
    (∃ t, perform a s = .next t) ∨
    (perform a s = .fault .loadError ∧ ∃ args, a = .reset args ∧ 3584 < args.program.length) := by
  cases a with
  | step keys rand => exact .inl (instructionCycle_next ..)
  | tick => exact .inl ⟨_, rfl⟩
  | reset args =>
    rcases hostReset_cases args s with ⟨_, h⟩ | ⟨hlen, h⟩
    · exact .inl ⟨_, h⟩
    · exact .inr ⟨h, args, rfl, hlen⟩

/-! ## The next action -/

/-- With an action listed it is the next one. -/
theorem nextAction_listed {s : State} {a : HostAction} {rest : List HostAction} (h : s.hostActions = a :: rest) :
    nextAction s = (a, { s with hostActions := rest }) := by simp [nextAction, h]

/-- With none listed the next one is free. -/
theorem nextAction_unlisted {s : State} (h : s.hostActions = []) :
    nextAction s = (Config.freeAction s.actionIndex, { s with actionIndex := s.actionIndex + 1 }) := by simp [nextAction, h]

/-! ## The model's own fields -/

/-- `s` with another list of coming actions and another counter. -/
def State.withHost (l : List HostAction) (n : Nat) (s : State) : State := { s with hostActions := l, actionIndex := n }

/-- An outcome with its next state changed. -/
def mapNext (f : State → State) (o : Host.Outcome State Fault Refusal) : Host.Outcome State Fault Refusal :=
  match o with
  | .next t => .next (f t)
  | .fault r => .fault r
  | .refused r => .refused r

variable (l : List HostAction) (n : Nat) (s : State)

@[simp] theorem State.withHost_self : s.withHost s.hostActions s.actionIndex = s := rfl

@[simp] theorem State.withHost_withHost (l' : List HostAction) (n' : Nat) : (s.withHost l' n').withHost l n = s.withHost l n := rfl

theorem setRegsFrom_withHost (k : Nat) (bytes : List Byte) :
    (s.withHost l n).setRegsFrom k bytes = (s.setRegsFrom k bytes).withHost l n := by
  induction bytes generalizing s k with
  | nil => rfl
  | cons b bytes ih => exact ih (s.setReg (BitVec.ofNat 4 k) b) (k + 1)

theorem accessOr_withHost (count : Nat) (t : State) :
    accessOr count (s.withHost l n) (t.withHost l n) = (accessOr count s t).withHost l n := by
  simp only [accessOr, show (s.withHost l n).i = s.i from rfl]
  cases rangeError s.i count <;> rfl

theorem autoIncrement_withHost (x : Nibble) : (s.withHost l n).autoIncrement x = (s.autoIncrement x).withHost l n := by
  simp only [State.autoIncrement, show (s.withHost l n).quirks = s.quirks from rfl]
  cases s.quirks.autoIncrementIndex <;> rfl

theorem copyForShift_withHost (x y : Nibble) : (s.withHost l n).copyForShift x y = (s.copyForShift x y).withHost l n := by
  simp only [State.copyForShift, show (s.withHost l n).quirks = s.quirks from rfl]
  cases s.quirks.legacyShift <;> rfl

/-- An instruction neither reads nor writes the two fields. -/
theorem exec_withHost (i : Instr) : exec i (s.withHost l n) = mapNext (State.withHost l n) (exec i s) := by
  cases i
  case ret =>
    simp only [exec, execRet, popReturn, mapNext]
    by_cases h : 0 < s.sp.val <;> simp [State.withHost, h, haltEntry, State.setPc]
  case call =>
    simp only [exec, execCall, pushReturn, mapNext]
    by_cases h : s.sp.val < Config.stackDepth <;> simp [State.withHost, h, haltEntry, State.setPc]
  case jp nnn =>
    simp only [exec, execJp, State.pc0, mapNext]
    by_cases h : addrWord nnn = s.pc - 2#16 <;> simp [State.withHost, h, haltEntry, State.setPc]
  case addI x =>
    simp only [exec, execAddI, mapNext, State.reg]
    by_cases h : Config.maxAddr < s.i.toNat + s.v[x.toNat].toNat <;>
      simp [State.withHost, h, State.setIndex, State.setFlag, State.setReg]
  case bcd x =>
    exact congrArg Host.Outcome.next (accessOr_withHost l n s 3 (s.setMem (s.mem.storeBytes s.i.toNat (bcdDigits (s.reg x)))))
  case drw x y k =>
    exact congrArg Host.Outcome.next (accessOr_withHost l n s k.toNat
      ((s.setDisplay (drawSprite x y k s).1).setFlag (flagByte (drawSprite x y k s).2)))
  case storeRegs x =>
    have h := autoIncrement_withHost l n (s.setMem (s.mem.storeBytes s.i.toNat (s.regsUpTo x))) x
    refine congrArg Host.Outcome.next (Eq.trans ?_ (accessOr_withHost ..))
    exact congrArg (accessOr (x.toNat + 1) (s.withHost l n)) h
  case loadRegs x =>
    refine congrArg Host.Outcome.next (Eq.trans ?_ (accessOr_withHost ..))
    rw [← autoIncrement_withHost, ← setRegsFrom_withHost]
    rfl
  case shrReg x y =>
    simp only [exec, execShrReg, copyForShift_withHost]
    rfl
  case shlReg x y =>
    simp only [exec, execShlReg, copyForShift_withHost]
    rfl
  all_goals rfl

/-- An instruction cycle neither reads nor writes the two fields. -/
theorem instructionCycle_withHost (keys : Word) (rand : Byte) :
    instructionCycle keys rand (s.withHost l n) = mapNext (State.withHost l n) (instructionCycle keys rand s) := by
  simp only [instructionCycle, show (s.withHost l n).run = s.run from rfl]
  cases s.run with
  | running =>
    change runningStep ((beginStep (sampleInputs keys rand s)).withHost l n) = mapNext _ (runningStep _)
    generalize beginStep (sampleInputs keys rand s) = u
    simp only [runningStep, show fetch (u.withHost l n) = fetch u from rfl]
    cases fetch u with
    | none => rfl
    | some iw =>
      change executeWord iw ((advance u).withHost l n) = mapNext _ (executeWord iw _)
      simp only [executeWord]
      cases decodeWord iw with
      | ok i => exact exec_withHost ..
      | error e => rfl
  | awaitKey =>
    simp only [awaitStep, beginStep, sampleInputs, State.withHost]
    cases lowestKey (keys &&& ~~~s.keyPrev) <;> rfl
  | halted => rfl

/-- No action reads or writes the two fields: only the step, which takes the action off the list, does. -/
theorem perform_withHost (a : HostAction) :
    perform a (s.withHost l n) = mapNext (State.withHost l n) (perform a s) := by
  cases a with
  | step keys rand => exact instructionCycle_withHost ..
  | tick => rfl
  | reset args =>
    simp only [perform, hostReset]
    cases args.programFits <;> rfl

end Sys2Proof.Machine
end

