-- ==== Sys2Proof/Laws/Decode.lean ====
section
/-! SUPPORT. The bits and fields of a word built from fields (R61, R62), and of a word built from bytes (R42). -/

namespace Sys2Proof

/-! ## Bits of the formats -/

theorem getLsbD_encA (op : Nibble) (a : Addr) (i : Nat) :
    (encA op a).getLsbD i = if i < 12 then a.getLsbD i else op.getLsbD (i - 12) :=
  BitVec.getLsbD_append (x := op) (y := a) (i := i)

theorem getLsbD_pair (hi lo : Nibble) (i : Nat) :
    (hi ++ lo : BitVec 8).getLsbD i = if i < 4 then lo.getLsbD i else hi.getLsbD (i - 4) :=
  BitVec.getLsbD_append (x := hi) (y := lo) (i := i)

theorem getLsbD_wordOf (hi lo : Byte) (i : Nat) :
    (wordOf hi lo).getLsbD i = if i < 8 then lo.getLsbD i else hi.getLsbD (i - 8) :=
  BitVec.getLsbD_append (x := hi) (y := lo) (i := i)

theorem getLsbD_encXK (op x : Nibble) (nn : Byte) (i : Nat) : (encXK op x nn).getLsbD i =
    if i < 8 then nn.getLsbD i else if i < 12 then x.getLsbD (i - 8) else op.getLsbD (i - 12) := by
  refine (getLsbD_wordOf (op ++ x : BitVec 8) nn i).trans ?_
  rw [getLsbD_pair, Nat.sub_sub]
  split_ifs <;> first | rfl | omega

theorem getLsbD_encXYN (op x y n : Nibble) (i : Nat) : (encXYN op x y n).getLsbD i =
    if i < 4 then n.getLsbD i else if i < 8 then y.getLsbD (i - 4)
    else if i < 12 then x.getLsbD (i - 8) else op.getLsbD (i - 12) := by
  refine (getLsbD_encXK op x (y ++ n : BitVec 8) i).trans ?_
  rw [getLsbD_pair]
  split_ifs <;> first | rfl | omega

/-! ## Fields of the formats -/

@[simp] theorem opOf_encA (op : Nibble) (a : Addr) : opOf (encA op a) = op := by
  apply BitVec.eq_of_getLsbD_eq
  intro i hi
  simp [opOf, getLsbD_encA, hi]

@[simp] theorem nnnOf_encA (op : Nibble) (a : Addr) : nnnOf (encA op a) = a := by
  apply BitVec.eq_of_getLsbD_eq
  intro i hi
  simp [nnnOf, getLsbD_encA, hi]

@[simp] theorem opOf_encXK (op x : Nibble) (nn : Byte) : opOf (encXK op x nn) = op := by
  apply BitVec.eq_of_getLsbD_eq
  intro i hi
  have h8 : ¬12 + i < 8 := by omega
  simp [opOf, getLsbD_encXK, hi, h8]

@[simp] theorem xOf_encXK (op x : Nibble) (nn : Byte) : xOf (encXK op x nn) = x := by
  apply BitVec.eq_of_getLsbD_eq
  intro i hi
  have h12 : 8 + i < 12 := by omega
  simp [xOf, getLsbD_encXK, hi, h12]

@[simp] theorem nnOf_encXK (op x : Nibble) (nn : Byte) : nnOf (encXK op x nn) = nn := by
  apply BitVec.eq_of_getLsbD_eq
  intro i hi
  simp [nnOf, getLsbD_encXK, hi]

@[simp] theorem opOf_encXYN (op x y n : Nibble) : opOf (encXYN op x y n) = op := opOf_encXK op x _

@[simp] theorem xOf_encXYN (op x y n : Nibble) : xOf (encXYN op x y n) = x := xOf_encXK op x _

@[simp] theorem yOf_encXYN (op x y n : Nibble) : yOf (encXYN op x y n) = y := by
  apply BitVec.eq_of_getLsbD_eq
  intro i hi
  have h8 : 4 + i < 8 := by omega
  simp [yOf, getLsbD_encXYN, hi, h8]

@[simp] theorem nOf_encXYN (op x y n : Nibble) : nOf (encXYN op x y n) = n := by
  apply BitVec.eq_of_getLsbD_eq
  intro i hi
  simp [nOf, getLsbD_encXYN, hi]

/-! ## Words from their parts -/

/-- The two bytes of a word combine to it again. -/
@[simp] theorem wordOf_bytes (w : Word) : wordOf (w.extractLsb' 8 8) (w.extractLsb' 0 8) = w := by
  apply BitVec.eq_of_getLsbD_eq
  intro i hi
  rw [getLsbD_wordOf]
  split
  · next h => simp [h]
  · next h =>
    have h8 : i - 8 < 8 := by omega
    simp [h8, show 8 + (i - 8) = i by omega]

/-- A word is its class, its X and its low byte. -/
theorem encXK_fields (w : Word) : encXK (opOf w) (xOf w) (nnOf w) = w := by
  apply BitVec.eq_of_getLsbD_eq
  intro i hi
  rw [getLsbD_encXK]
  split_ifs with h8 h12
  · simp [nnOf, h8]
  · have h4 : i - 8 < 4 := by omega
    simp [xOf, h4, show 8 + (i - 8) = i by omega]
  · have h4 : i - 12 < 4 := by omega
    simp [opOf, h4, show 12 + (i - 12) = i by omega]

/-- A word is its class and its address. -/
theorem encA_fields (w : Word) : encA (opOf w) (nnnOf w) = w := by
  apply BitVec.eq_of_getLsbD_eq
  intro i hi
  rw [getLsbD_encA]
  split_ifs with h12
  · simp [nnnOf, h12]
  · have h4 : i - 12 < 4 := by omega
    simp [opOf, h4, show 12 + (i - 12) = i by omega]

/-- A word is its four nibbles. -/
theorem encXYN_fields (w : Word) : encXYN (opOf w) (xOf w) (yOf w) (nOf w) = w := by
  apply BitVec.eq_of_getLsbD_eq
  intro i hi
  rw [getLsbD_encXYN]
  split_ifs with h4 h8 h12
  · simp [nOf, h4]
  · have h4' : i - 4 < 4 := by omega
    simp [yOf, h4', show 4 + (i - 4) = i by omega]
  · have h4' : i - 8 < 4 := by omega
    simp [xOf, h4', show 8 + (i - 8) = i by omega]
  · have h4' : i - 12 < 4 := by omega
    simp [opOf, h4', show 12 + (i - 12) = i by omega]

/-- Decoding the two bytes of a word, with more bytes after them, decodes the word. -/
theorem decode_bytesOf (w : Word) (rest : List Byte) :
    decode (bytesOf w ++ rest) =
      match decodeWord w with
      | .ok i => .ok (i, rest)
      | .error e => .error e := by
  cases h : decodeWord w <;> simp only [decode, bytesOf, List.cons_append, List.nil_append, wordOf_bytes, h]

/-! ## The masks of the opcode map (R66) -/

theorem encA_and_class (op : Nibble) (a : Addr) : encA op a &&& 0xF000#16 = encA op 0#12 := by
  apply BitVec.eq_of_getLsbD_eq
  intro i hi
  rw [BitVec.getLsbD_and, getLsbD_encA, getLsbD_encA]
  interval_cases i <;> simp

theorem encXK_and_class (op x : Nibble) (nn : Byte) : encXK op x nn &&& 0xF000#16 = encXK op 0#4 0#8 := by
  apply BitVec.eq_of_getLsbD_eq
  intro i hi
  rw [BitVec.getLsbD_and, getLsbD_encXK, getLsbD_encXK]
  interval_cases i <;> simp

theorem encXK_and_subkey (op x : Nibble) (nn : Byte) : encXK op x nn &&& 0xF0FF#16 = encXK op 0#4 nn := by
  apply BitVec.eq_of_getLsbD_eq
  intro i hi
  rw [BitVec.getLsbD_and, getLsbD_encXK, getLsbD_encXK]
  interval_cases i <;> simp

theorem encXYN_and_class (op x y n : Nibble) : encXYN op x y n &&& 0xF000#16 = encXYN op 0#4 0#4 0#4 := by
  apply BitVec.eq_of_getLsbD_eq
  intro i hi
  rw [BitVec.getLsbD_and, getLsbD_encXYN, getLsbD_encXYN]
  interval_cases i <;> simp

theorem encXYN_and_subkey (op x y n : Nibble) : encXYN op x y n &&& 0xF00F#16 = encXYN op 0#4 0#4 n := by
  apply BitVec.eq_of_getLsbD_eq
  intro i hi
  rw [BitVec.getLsbD_and, getLsbD_encXYN, getLsbD_encXYN]
  interval_cases i <;> simp

end Sys2Proof
end

