-- ==== Sys2Proof/Laws/PerInstr.lean ====
section
/-! SUPPORT. Facts about each instruction as syntax, one lemma per constructor. -/

namespace Sys2Proof.Laws.OpcodeRow

/-- The instruction's word matches its row of the opcode map, and its operands reach no bit the row fixes (R66). -/
def Statement (i : Instr) : Prop := encode i &&& (rowOf i).1 = (rowOf i).2

theorem halt : Statement Sys2Proof.Instr.halt := encXK_and_subkey ..
theorem cls : Statement Sys2Proof.Instr.cls := encXK_and_subkey ..
theorem ret : Statement Sys2Proof.Instr.ret := encXK_and_subkey ..
theorem jp (nnn : Addr) : Statement (Sys2Proof.Instr.jp nnn) := encA_and_class ..
theorem call (nnn : Addr) : Statement (Sys2Proof.Instr.call nnn) := encA_and_class ..
theorem seImm (x : Nibble) (nn : Byte) : Statement (Sys2Proof.Instr.seImm x nn) := encXK_and_class ..
theorem sneImm (x : Nibble) (nn : Byte) : Statement (Sys2Proof.Instr.sneImm x nn) := encXK_and_class ..
theorem seReg (x : Nibble) (y : Nibble) : Statement (Sys2Proof.Instr.seReg x y) := encXYN_and_class ..
theorem sneReg (x : Nibble) (y : Nibble) : Statement (Sys2Proof.Instr.sneReg x y) := encXYN_and_class ..
theorem ldImm (x : Nibble) (nn : Byte) : Statement (Sys2Proof.Instr.ldImm x nn) := encXK_and_class ..
theorem addImm (x : Nibble) (nn : Byte) : Statement (Sys2Proof.Instr.addImm x nn) := encXK_and_class ..
theorem ldReg (x : Nibble) (y : Nibble) : Statement (Sys2Proof.Instr.ldReg x y) := encXYN_and_subkey ..
theorem orReg (x : Nibble) (y : Nibble) : Statement (Sys2Proof.Instr.orReg x y) := encXYN_and_subkey ..
theorem andReg (x : Nibble) (y : Nibble) : Statement (Sys2Proof.Instr.andReg x y) := encXYN_and_subkey ..
theorem xorReg (x : Nibble) (y : Nibble) : Statement (Sys2Proof.Instr.xorReg x y) := encXYN_and_subkey ..
theorem addReg (x : Nibble) (y : Nibble) : Statement (Sys2Proof.Instr.addReg x y) := encXYN_and_subkey ..
theorem subReg (x : Nibble) (y : Nibble) : Statement (Sys2Proof.Instr.subReg x y) := encXYN_and_subkey ..
theorem subnReg (x : Nibble) (y : Nibble) : Statement (Sys2Proof.Instr.subnReg x y) := encXYN_and_subkey ..
theorem shrReg (x : Nibble) (y : Nibble) : Statement (Sys2Proof.Instr.shrReg x y) := encXYN_and_subkey ..
theorem shlReg (x : Nibble) (y : Nibble) : Statement (Sys2Proof.Instr.shlReg x y) := encXYN_and_subkey ..
theorem ldI (nnn : Addr) : Statement (Sys2Proof.Instr.ldI nnn) := encA_and_class ..
theorem jpV0 (nnn : Addr) : Statement (Sys2Proof.Instr.jpV0 nnn) := encA_and_class ..
theorem rnd (x : Nibble) (nn : Byte) : Statement (Sys2Proof.Instr.rnd x nn) := encXK_and_class ..
theorem drw (x : Nibble) (y : Nibble) (n : Nibble) : Statement (Sys2Proof.Instr.drw x y n) := encXYN_and_class ..
theorem skp (x : Nibble) : Statement (Sys2Proof.Instr.skp x) := encXK_and_subkey ..
theorem sknp (x : Nibble) : Statement (Sys2Proof.Instr.sknp x) := encXK_and_subkey ..
theorem ldVxDt (x : Nibble) : Statement (Sys2Proof.Instr.ldVxDt x) := encXK_and_subkey ..
theorem ldDtVx (x : Nibble) : Statement (Sys2Proof.Instr.ldDtVx x) := encXK_and_subkey ..
theorem ldStVx (x : Nibble) : Statement (Sys2Proof.Instr.ldStVx x) := encXK_and_subkey ..
theorem addI (x : Nibble) : Statement (Sys2Proof.Instr.addI x) := encXK_and_subkey ..
theorem ldVxK (x : Nibble) : Statement (Sys2Proof.Instr.ldVxK x) := encXK_and_subkey ..
theorem ldF (x : Nibble) : Statement (Sys2Proof.Instr.ldF x) := encXK_and_subkey ..
theorem bcd (x : Nibble) : Statement (Sys2Proof.Instr.bcd x) := encXK_and_subkey ..
theorem storeRegs (x : Nibble) : Statement (Sys2Proof.Instr.storeRegs x) := encXK_and_subkey ..
theorem loadRegs (x : Nibble) : Statement (Sys2Proof.Instr.loadRegs x) := encXK_and_subkey ..

end Sys2Proof.Laws.OpcodeRow
end

