-- ==== Sys2Proof/Tests/Slice0.lean ====
section
/-! SUPPORT. The model's own tests. The words and the expected values are those of 95_test_vectors.md (E1 to E9, V1 to V214)
or of the opcode map R66, worked out by hand. The second half holds, for every obligation with hypotheses, a state and
operands that meet them, one for each clause, at the ends of its range. -/

namespace Sys2Proof.Tests

open Sys2Proof.Machine

/-! ## Well-formed arguments -/

/-- A reset with a program of `n` bytes and nothing else. -/
def resetArgs (n : Nat) : ResetArgs where
  font := Vector.replicate 80 0x00#8
  program := List.replicate n 0x00#8
  quirks := { legacyShift := false, legacyJump := false, autoIncrementIndex := false }
  memInit := []

theorem resetArgs_length (n : Nat) : (resetArgs n).program.length = n := List.length_replicate

/-- A program one byte too long (E2). -/
theorem test_wellFormed_refuses_too_long_program : (resetArgs 3585).programFits = false := by
  rw [ResetArgs.programFits, resetArgs_length]; rfl

/-- The longest program (E1). -/
theorem test_wellFormed_accepts_longest_program : (resetArgs 3584).programFits = true := by
  rw [ResetArgs.programFits, resetArgs_length]; rfl

/-- A listed byte at the first address the memory does not have. -/
theorem test_wellFormed_refuses_memInit_outside :
    ({ resetArgs 2 with memInit := [(0x1000, 0x01#8)] } : ResetArgs).memInitInRange = false ∧
    ({ resetArgs 2 with memInit := [(0x1000, 0x01#8)] } : ResetArgs).wellFormed = false := by decide

theorem test_wellFormed_accepts_last_byte :
    ({ resetArgs 2 with memInit := [(0xFFF, 0x01#8)] } : ResetArgs).wellFormed = true := by decide

/-- Every operand of every instruction is legal, so the instruction check has nothing to refuse (R63). -/
theorem test_wellFormed_instructions :
    (Instr.drw 0xF#4 0xF#4 0xF#4).wellFormed = true ∧ (Instr.jp 0xFFF#12).wellFormed = true := by decide

/-! ## Decoding: words written out from R66, ignored nibbles filled where the row has one -/

theorem test_decode_class0 :
    decode [0x0F#8, 0x00#8] = .ok (.halt, []) ∧
    decode [0x0A#8, 0xE0#8] = .ok (.cls, []) ∧
    decode [0x03#8, 0xEE#8] = .ok (.ret, []) := by decide

theorem test_decode_addresses :
    decode [0x1A#8, 0xBC#8] = .ok ((.jp 0xABC#12), []) ∧
    decode [0x22#8, 0x00#8] = .ok ((.call 0x200#12), []) ∧
    decode [0xA2#8, 0xF0#8] = .ok ((.ldI 0x2F0#12), []) ∧
    decode [0xB3#8, 0x00#8] = .ok ((.jpV0 0x300#12), []) := by decide

theorem test_decode_skips :
    decode [0x3A#8, 0x42#8] = .ok ((.seImm 0xA#4 0x42#8), []) ∧
    decode [0x4A#8, 0x42#8] = .ok ((.sneImm 0xA#4 0x42#8), []) ∧
    decode [0x51#8, 0x21#8] = .ok ((.seReg 0x1#4 0x2#4), []) ∧
    decode [0x9A#8, 0xBF#8] = .ok ((.sneReg 0xA#4 0xB#4), []) := by decide

theorem test_decode_immediates :
    decode [0x6A#8, 0xCD#8] = .ok ((.ldImm 0xA#4 0xCD#8), []) ∧
    decode [0x7F#8, 0x02#8] = .ok ((.addImm 0xF#4 0x02#8), []) ∧
    decode [0xC3#8, 0x0F#8] = .ok ((.rnd 0x3#4 0x0F#8), []) := by decide

theorem test_decode_class8 :
    decode [0x81#8, 0x20#8] = .ok ((.ldReg 0x1#4 0x2#4), []) ∧
    decode [0x81#8, 0x21#8] = .ok ((.orReg 0x1#4 0x2#4), []) ∧
    decode [0x81#8, 0x22#8] = .ok ((.andReg 0x1#4 0x2#4), []) ∧
    decode [0x81#8, 0x23#8] = .ok ((.xorReg 0x1#4 0x2#4), []) ∧
    decode [0x81#8, 0x24#8] = .ok ((.addReg 0x1#4 0x2#4), []) ∧
    decode [0x81#8, 0x25#8] = .ok ((.subReg 0x1#4 0x2#4), []) ∧
    decode [0x81#8, 0x27#8] = .ok ((.subnReg 0x1#4 0x2#4), []) ∧
    decode [0x81#8, 0x26#8] = .ok ((.shrReg 0x1#4 0x2#4), []) ∧
    decode [0x81#8, 0x2E#8] = .ok ((.shlReg 0x1#4 0x2#4), []) := by decide

theorem test_decode_draw_and_keys :
    decode [0xD0#8, 0x1F#8] = .ok ((.drw 0x0#4 0x1#4 0xF#4), []) ∧
    decode [0xE3#8, 0x9E#8] = .ok ((.skp 0x3#4), []) ∧
    decode [0xE3#8, 0xA1#8] = .ok ((.sknp 0x3#4), []) := by decide

theorem test_decode_classF :
    decode [0xF1#8, 0x07#8] = .ok ((.ldVxDt 0x1#4), []) ∧
    decode [0xF3#8, 0x0A#8] = .ok ((.ldVxK 0x3#4), []) ∧
    decode [0xF0#8, 0x15#8] = .ok ((.ldDtVx 0x0#4), []) ∧
    decode [0xF4#8, 0x18#8] = .ok ((.ldStVx 0x4#4), []) ∧
    decode [0xF2#8, 0x1E#8] = .ok ((.addI 0x2#4), []) ∧
    decode [0xF0#8, 0x29#8] = .ok ((.ldF 0x0#4), []) ∧
    decode [0xF0#8, 0x33#8] = .ok ((.bcd 0x0#4), []) ∧
    decode [0xF3#8, 0x55#8] = .ok ((.storeRegs 0x3#4), []) ∧
    decode [0xF2#8, 0x65#8] = .ok ((.loadRegs 0x2#4), []) := by decide

/-- Unknown words (V6, V7). -/
theorem test_decode_unknown :
    ([0x0001#16, 0x00E1#16, 0x0FFF#16, 0x8128#16, 0x812F#16, 0xE000#16, 0xE19F#16, 0xF000#16, 0xF1FF#16, 0xF154#16].all
      fun iw => decide (decodeWord iw = .error (.unknownOpcode iw))) = true := by decide

/-- Fewer than two bytes are no instruction (R60). -/
theorem test_decode_truncated : decode [] = .error .truncated ∧ decode [0x12#8] = .error .truncated := by decide

/-- The bytes after the instruction are handed on. -/
theorem test_decode_rest : decode [0x00#8, 0xEE#8, 0x12#8] = .ok (.ret, [0x12#8]) := by decide

/-- The encoder assembles ignored nibbles as 0 (R69). -/
theorem test_encode : encode .cls = 0x00E0#16 ∧ encode (.seReg 0x1#4 0x2#4) = 0x5120#16 ∧
    encode (.drw 0x0#4 0x1#4 0xF#4) = 0xD01F#16 ∧ encode (.jpV0 0x300#12) = 0xB300#16 := by decide

/-- Bit 0 is the least significant bit of the 16-bit word. -/
theorem test_decodeTableWord : decodeTableWord 16 0xD01F = some (.drw 0x0#4 0x1#4 0xF#4) ∧ decodeTableWord 16 0x8128 = none := by
  decide

/-! ## One step on a small state -/

/-- The reset state with the word `w` at 0x200, the listed registers set, and one instruction cycle with these inputs next. -/
def start (w : Nat) (regs : List (Nibble × Byte)) (keys : Word := 0x0000#16) (rand : Byte := 0x00#8) : State :=
  regs.foldl (fun s r => s.setReg r.1 r.2) { State.reset.withFetchWord 16 w with hostActions := [.step keys rand] }

/-- The state after a step; the state itself where there is no next one. -/
def after (s : State) : State :=
  match step s with
  | .next t => t
  | .fault _ => s
  | .refused _ => s

/-- The listed bytes at `a`, and `I` there. -/
def dataAt (a : Nat) (l : List Byte) (s : State) : State :=
  { s with mem := s.mem.storeBytes a l, i := BitVec.ofNat 16 a }

/-- The three bytes at `a`. -/
def bytes3 (s : State) (a : Nat) : List Byte := s.mem.loadBytes a 3

/-- Words run as the first instruction after reset. -/
theorem test_withFetchWord : (after (State.reset.withFetchWord 16 0x6ACD)).reg 0xA#4 = 0xCD#8 ∧
    (after (State.reset.withFetchWord 16 0x6ACD)).pc = 0x202#16 := by decide

/-- With nothing placed the first instruction cycle after reset runs HALT (V211, R246). -/
theorem test_reset_then_step :
    (let t := after { State.reset with hostActions := [.step 0x0000#16 0x00#8] }
     (t.status, t.pc)) = (.halt, 0x202#16) := by decide

theorem test_reset_memory_wf : State.reset.mem.wf = true := by decide

/-- Writing and removing an entry keep the canonical form: writing 0x00 leaves no entry. -/
theorem test_memory_canonical :
    (Memory.write (Memory.write (Memory.write [] 5 0x01#8) 3 0x02#8) 5 0x00#8) = [(3, 0x02#8)] := by decide

/-- V8, V30 -/
theorem test_halt : ((after (start 0x0F00 [])).run, (after (start 0x0F00 [])).haltCause, (after (start 0x0F00 [])).pc) = (.halted, .halt, 0x202#16) := by decide

/-- V9, V25 -/
theorem test_ret_underflow : ((after (start 0x03EE [])).status, (after (start 0x03EE [])).pc, (after (start 0x03EE [])).sp.val) = (.stackUnderflow, 0x202#16, 0) := by decide

/-- CALL then RET (E6): the pushed address is the one after the CALL. -/
theorem test_call_ret :
    (let t := after (start 0x2204 []); let u := after { t with mem := storeWord t.mem 0x204 0x00EE#16, hostActions := [.step 0 0] }
     (t.pc, t.sp.val, t.stack[0], u.pc, u.sp.val)) = (0x204#16, 1, 0x202#16, 0x202#16, 0) := by decide

/-- CALL with a full stack (V24, step 17). -/
theorem test_call_overflow :
    (let t := after { start 0x2200 [] with sp := 16 }
     (t.status, t.pc, t.sp.val, t.stack[15])) = (.stackOverflow, 0x202#16, 16, 0x0000#16) := by decide

/-- V20, V22 -/
theorem test_jp : ((after (start 0x1ABC [])).pc, (after (start 0x1ABC [])).status, (after (start 0x1202 [])).pc, (after (start 0x1202 [])).status) = (0xABC#16, .ok, 0x202#16, .ok) := by decide

/-- E5 -/
theorem test_jp_self : ((after (start 0x1200 [])).pc, (after (start 0x1200 [])).run, (after (start 0x1200 [])).haltCause) = (0x200#16, .halted, .infiniteLoop) := by decide

/-- V26, V28 -/
theorem test_jpV0_legacy :
    (let q : Quirks := { legacyShift := false, legacyJump := true, autoIncrementIndex := false }
     ((after { start 0xB300 [(0x0#4, 0x04#8), (0x3#4, 0x10#8)] with quirks := q }).pc,
      (after { start 0xBFFF [(0x0#4, 0xFF#8)] with quirks := q }).pc)) = (0x304#16, 0x10FE#16) := by decide

/-- V27 -/
theorem test_jpV0_modern : (after (start 0xB300 [(0x0#4, 0x04#8), (0x3#4, 0x10#8)])).pc = 0x310#16 := by decide

/-- V40, V41 -/
theorem test_seImm : ((after (start 0x3A42 [(0xA#4, 0x42#8)])).pc, (after (start 0x3A42 [(0xA#4, 0x43#8)])).pc) = (0x204#16, 0x202#16) := by decide

/-- V42, V43 -/
theorem test_sneImm : ((after (start 0x4A42 [(0xA#4, 0x42#8)])).pc, (after (start 0x4A42 [(0xA#4, 0x43#8)])).pc) = (0x202#16, 0x204#16) := by decide

/-- V44, V45 -/
theorem test_seReg : ((after (start 0x5AB0 [(0xA#4, 0xFF#8), (0xB#4, 0xFF#8)])).pc, (after (start 0x5AB0 [(0xA#4, 0x00#8), (0xB#4, 0x01#8)])).pc) = (0x204#16, 0x202#16) := by decide

/-- V47, V48 -/
theorem test_sneReg : ((after (start 0x9AB0 [(0xA#4, 0x00#8), (0xB#4, 0x01#8)])).pc, (after (start 0x9AA0 [(0xA#4, 0x07#8)])).pc) = (0x204#16, 0x202#16) := by decide

/-- V184, V181 -/
theorem test_skp : ((after (start 0xE39E [(0x3#4, 0x1A#8)] 0x0400#16)).pc, (after (start 0xE39E [(0x3#4, 0x05#8)] 0xFFDF#16)).pc) = (0x204#16, 0x202#16) := by decide

/-- V182, V183 -/
theorem test_sknp : ((after (start 0xE3A1 [(0x3#4, 0x05#8)] 0x0020#16)).pc, (after (start 0xE3A1 [(0x3#4, 0x05#8)])).pc) = (0x202#16, 0x204#16) := by decide

/-- V60, V61 -/
theorem test_ldImm : ((after (start 0x6ACD [])).reg 0xA#4, (after (start 0x6F07 [])).reg 0xF#4) = (0xCD#8, 0x07#8) := by decide

/-- V62, V65 -/
theorem test_addImm : ((after (start 0x7A01 [(0xA#4, 0xFF#8), (0xF#4, 0x55#8)])).reg 0xA#4, (after (start 0x7A01 [(0xA#4, 0xFF#8), (0xF#4, 0x55#8)])).reg 0xF#4, (after (start 0x7F02 [(0xF#4, 0xFF#8)])).reg 0xF#4) = (0x00#8, 0x55#8, 0x01#8) := by decide

/-- V70 -/
theorem test_ldReg : ((after (start 0x8120 [(0x2#4, 0xAB#8), (0xF#4, 0x77#8)])).reg 0x1#4, (after (start 0x8120 [(0x2#4, 0xAB#8), (0xF#4, 0x77#8)])).reg 0x2#4, (after (start 0x8120 [(0x2#4, 0xAB#8), (0xF#4, 0x77#8)])).reg 0xF#4) = (0xAB#8, 0xAB#8, 0x77#8) := by decide

/-- V71 -/
theorem test_orReg : ((after (start 0x8121 [(0x1#4, 0xF0#8), (0x2#4, 0x0F#8), (0xF#4, 0x77#8)])).reg 0x1#4, (after (start 0x8121 [(0x1#4, 0xF0#8), (0x2#4, 0x0F#8), (0xF#4, 0x77#8)])).reg 0xF#4) = (0xFF#8, 0x77#8) := by decide

/-- V72 -/
theorem test_andReg : ((after (start 0x8122 [(0x1#4, 0xF3#8), (0x2#4, 0x3F#8), (0xF#4, 0x77#8)])).reg 0x1#4, (after (start 0x8122 [(0x1#4, 0xF3#8), (0x2#4, 0x3F#8), (0xF#4, 0x77#8)])).reg 0xF#4) = (0x33#8, 0x77#8) := by decide

/-- V73 -/
theorem test_xorReg : ((after (start 0x8123 [(0x1#4, 0xFF#8), (0x2#4, 0x0F#8), (0xF#4, 0x77#8)])).reg 0x1#4, (after (start 0x8123 [(0x1#4, 0xFF#8), (0x2#4, 0x0F#8), (0xF#4, 0x77#8)])).reg 0xF#4) = (0xF0#8, 0x77#8) := by decide

/-- E3, V75: the flag is 0 on overflow -/
theorem test_addReg_overflow : ((after (start 0x8124 [(0x1#4, 0xFF#8), (0x2#4, 0x02#8)])).reg 0x1#4, (after (start 0x8124 [(0x1#4, 0xFF#8), (0x2#4, 0x02#8)])).reg 0x2#4, (after (start 0x8124 [(0x1#4, 0xFF#8), (0x2#4, 0x02#8)])).reg 0xF#4) = (0x01#8, 0x02#8, 0x00#8) := by decide

/-- V104: the flag is written last -/
theorem test_addReg_flag_destination : ((after (start 0x8F24 [(0xF#4, 0x01#8), (0x2#4, 0x02#8)])).reg 0xF#4, (after (start 0x8F24 [(0xF#4, 0x01#8), (0x2#4, 0x02#8)])).reg 0x2#4) = (0x01#8, 0x02#8) := by decide

/-- E4, V82 -/
theorem test_subReg_borrow : ((after (start 0x8125 [(0x1#4, 0x05#8), (0x2#4, 0x0A#8)])).reg 0x1#4, (after (start 0x8125 [(0x1#4, 0x05#8), (0x2#4, 0x0A#8)])).reg 0x2#4, (after (start 0x8125 [(0x1#4, 0x05#8), (0x2#4, 0x0A#8)])).reg 0xF#4) = (0xFB#8, 0x0A#8, 0x00#8) := by decide

/-- V112: the flag is written first -/
theorem test_subReg_flag_operand : ((after (start 0x81F5 [(0x1#4, 0x09#8), (0xF#4, 0x05#8)])).reg 0x1#4, (after (start 0x81F5 [(0x1#4, 0x09#8), (0xF#4, 0x05#8)])).reg 0xF#4) = (0x08#8, 0x01#8) := by decide

/-- V87: the destination is V2 -/
theorem test_subnReg : ((after (start 0x8127 [(0x1#4, 0x03#8), (0x2#4, 0x0A#8)])).reg 0x2#4, (after (start 0x8127 [(0x1#4, 0x03#8), (0x2#4, 0x0A#8)])).reg 0x1#4, (after (start 0x8127 [(0x1#4, 0x03#8), (0x2#4, 0x0A#8)])).reg 0xF#4) = (0x07#8, 0x03#8, 0x01#8) := by decide

/-- V115 -/
theorem test_subnReg_flag_operand : ((after (start 0x81F7 [(0x1#4, 0x03#8), (0xF#4, 0x05#8)])).reg 0x1#4, (after (start 0x81F7 [(0x1#4, 0x03#8), (0xF#4, 0x05#8)])).reg 0xF#4) = (0x03#8, 0xFE#8) := by decide

/-- V91 -/
theorem test_shrReg : ((after (start 0x8126 [(0x1#4, 0x05#8), (0x2#4, 0xF0#8)])).reg 0x1#4, (after (start 0x8126 [(0x1#4, 0x05#8), (0x2#4, 0xF0#8)])).reg 0x2#4, (after (start 0x8126 [(0x1#4, 0x05#8), (0x2#4, 0xF0#8)])).reg 0xF#4) = (0x02#8, 0xF0#8, 0x01#8) := by decide

/-- V92 -/
theorem test_shrReg_legacy : ((after { start 0x8126 [(0x1#4, 0x05#8), (0x2#4, 0xF0#8)] with quirks := { legacyShift := true, legacyJump := false, autoIncrementIndex := false } }).reg 0x1#4, (after { start 0x8126 [(0x1#4, 0x05#8), (0x2#4, 0xF0#8)] with quirks := { legacyShift := true, legacyJump := false, autoIncrementIndex := false } }).reg 0x2#4, (after { start 0x8126 [(0x1#4, 0x05#8), (0x2#4, 0xF0#8)] with quirks := { legacyShift := true, legacyJump := false, autoIncrementIndex := false } }).reg 0xF#4) = (0x78#8, 0xF0#8, 0x00#8) := by decide

/-- V124 -/
theorem test_shlReg : ((after (start 0x8F2E [(0xF#4, 0x80#8), (0x2#4, 0x01#8)])).reg 0xF#4, (after (start 0x8F2E [(0xF#4, 0x80#8), (0x2#4, 0x01#8)])).reg 0x2#4) = (0x02#8, 0x01#8) := by decide

/-- V102 -/
theorem test_shlReg_legacy : ((after { start 0x812E [(0x1#4, 0x05#8), (0x2#4, 0xC0#8)] with quirks := { legacyShift := true, legacyJump := false, autoIncrementIndex := false } }).reg 0x1#4, (after { start 0x812E [(0x1#4, 0x05#8), (0x2#4, 0xC0#8)] with quirks := { legacyShift := true, legacyJump := false, autoIncrementIndex := false } }).reg 0x2#4, (after { start 0x812E [(0x1#4, 0x05#8), (0x2#4, 0xC0#8)] with quirks := { legacyShift := true, legacyJump := false, autoIncrementIndex := false } }).reg 0xF#4) = (0x80#8, 0xC0#8, 0x01#8) := by decide

/-- V1, V130 -/
theorem test_ldI : ((after (start 0xA2F0 [])).i, (after (start 0xAFFF [])).i) = (0x2F0#16, 0xFFF#16) := by decide

/-- V131 -/
theorem test_addI_kept_flag : ((after { start 0xF21E [(0x2#4, 0x10#8), (0xF#4, 0x55#8)] with i := 0x0300#16 }).i, (after { start 0xF21E [(0x2#4, 0x10#8), (0xF#4, 0x55#8)] with i := 0x0300#16 }).reg 0xF#4) = (0x0310#16, 0x55#8) := by decide

/-- V132 -/
theorem test_addI_wraps : ((after { start 0xF21E [(0x2#4, 0x01#8)] with i := 0x0FFF#16 }).i, (after { start 0xF21E [(0x2#4, 0x01#8)] with i := 0x0FFF#16 }).reg 0xF#4) = (0x0000#16, 0x01#8) := by decide

/-- V138 -/
theorem test_ldF : ((after (start 0xF029 [(0x0#4, 0x0A#8)])).i, (after (start 0xF029 [(0x0#4, 0xFF#8)])).i) = (0x082#16, 0x54B#16) := by decide

/-- V141 -/
theorem test_bcd : bytes3 (after { start 0xF033 [(0x0#4, 0x7B#8)] with i := 0xFFD#16 }) 0xFFD = [0x01#8, 0x02#8, 0x03#8] := by
  decide

/-- V142: nothing stored, the first address out of range reported. -/
theorem test_bcd_out_of_range :
    (let t := after { start 0xF033 [(0x0#4, 0x7B#8)] with i := 0xFFE#16 }
     (t.status, t.run, t.pc, t.report, t.mem.read 0xFFE, t.mem.read 0xFFF)) =
      (.outOfBoundsAccess, .halted, 0x202#16, .dataAddress 0x1000, 0x00#8, 0x00#8) := by decide

/-- V143 -/
theorem test_storeRegs_auto_increment :
    (let t := after { start 0xF355 [(0x0#4, 0x11#8), (0x1#4, 0x22#8), (0x2#4, 0x33#8), (0x3#4, 0x44#8)] with
       i := 0xFFC#16, quirks := { legacyShift := false, legacyJump := false, autoIncrementIndex := true } }
     (t.mem.loadBytes 0xFFC 4, t.i, t.status)) = ([0x11#8, 0x22#8, 0x33#8, 0x44#8], 0x1000#16, .ok) := by decide

/-- V150: the next fetch sees the store. -/
theorem test_storeRegs_self_modifying :
    (let t := after { start 0xF055 [] with mem := [(0x200, 0xF0#8), (0x201, 0x55#8), (0x202, 0x6A#8), (0x203, 0x55#8)], i := 0x202#16 }
     (fetch t, (after { t with hostActions := [.step 0 0] }).status)) = (some 0x0055#16, .unknownOpcode) := by decide

/-- V147 -/
theorem test_loadRegs :
    (let t := after { dataAt 0x300 [0x02#8, 0x05#8, 0x04#8] (start 0xF265 [(0x3#4, 0x99#8)]) with
       quirks := { legacyShift := false, legacyJump := false, autoIncrementIndex := true } }
     (t.regsUpTo 0x3#4, t.i)) = ([0x02#8, 0x05#8, 0x04#8, 0x99#8], 0x303#16) := by decide

/-- V149 -/
theorem test_loadRegs_out_of_range :
    (let t := after (dataAt 0xFFF [0x9A#8] (start 0xF165 []))
     (t.status, t.reg 0x0#4, t.reg 0x1#4)) = (.outOfBoundsAccess, 0x00#8, 0x00#8) := by decide

/-! ## Display -/

/-- Cells (31,62), (31,63) of P4 with clipping: row 31, the two high bits. -/
theorem test_drw_corner_clip :
    (let t := after (dataAt 0x300 [0xF0#8, 0xFF#8] (start 0xD012 [(0x0#4, 0x3E#8), (0x1#4, 0x1F#8)]))
     (t.disp[31].toNat, t.disp[0].toNat, t.reg 0xF#4, t.displayDirty)) = (0xC000000000000000, 0, 0x00#8, true) := by decide

/-- The same with wrapping (P4): (31,62), (31,63), (31,0), (31,1); (0,62), (0,63), (0,0) to (0,5). -/
theorem test_drw_corner_wrap :
    (let t := after { dataAt 0x300 [0xF0#8, 0xFF#8] (start 0xD012 [(0x0#4, 0x3E#8), (0x1#4, 0x1F#8)]) with drawEdge := .wrap }
     (t.disp[31].toNat, t.disp[0].toNat, t.reg 0xF#4)) = (0xC000000000000003, 0xC00000000000003F, 0x00#8) := by decide

/-- V160 -/
theorem test_cls :
    (let t := after { start 0x00E0 [(0xF#4, 0x05#8)] with disp := flipCell blankDisplay 3 7 }
     (t.disp, t.displayDirty, t.reg 0xF#4)) = (blankDisplay, true, 0x05#8) := by decide

/-! ## Keypad, timers, random -/

/-- V187: a key already held does not end the wait; released and pressed again it does. -/
theorem test_ldVxK :
    (let t := after (start 0xF30A [] 0x0020#16); let next := fun (s : State) k => after { s with hostActions := [.step k 0] }
     ((t.run, t.status, t.waitReg, t.keyPrev), (next t 0x0020#16).status, (next (next t 0x0000#16) 0x0020#16).reg 0x3#4)) =
      ((.awaitKey, .awaitingKey, 0x3#4, 0x0020#16), .awaitingKey, 0x05#8) := by decide

/-- V188, V189: the lowest of the keys that went down. -/
theorem test_await_lowest_key :
    (let next := fun (s : State) k => after { s with hostActions := [.step k 0] }
     ((next (after (start 0xF00A [])) 0x0108#16).reg 0x0#4, (next (after (start 0xF00A [] 0x0020#16)) 0x0220#16).reg 0x0#4)) =
      (0x03#8, 0x09#8) := by decide

/-- V191 -/
theorem test_ldVxDt : (after { start 0xF107 [] with dt := 0x03#8 }).reg 0x1#4 = 0x03#8 := by decide

/-- V192 -/
theorem test_ldDtVx : (after { start 0xF015 [] with dt := 0x09#8 }).dt = 0x00#8 := by decide

/-- V193 -/
theorem test_ldStVx :
    (let t := after (start 0xF418 [(0x4#4, 0x02#8)])
     (t.st, t.soundActive, (tick t).soundActive, (tick (tick t)).soundActive)) = (0x02#8, true, true, false) := by decide

/-- V196, V199 -/
theorem test_rnd : ((after (start 0xC30F [] 0 0xA7#8)).reg 0x3#4, (after (start 0xCF81 [] 0 0xFF#8)).reg 0xF#4) =
    (0x07#8, 0x81#8) := by decide

/-! ## The cycle, ticks, resets -/

/-- V2: the last fetch that succeeds. -/
theorem test_fetch_last :
    (let t := after { start 0x0000 [] with pc := 0xFFE#16, mem := [(0xFFE, 0x60#8), (0xFFF, 0x07#8)] }
     (t.reg 0x0#4, t.pc, t.status)) = (0x07#8, 0x1000#16, .ok) := by decide

/-- V4: one byte of the word is outside. -/
theorem test_fetch_out_of_bounds :
    (let t := after { start 0x0000 [] with pc := 0xFFF#16 }
     (t.status, t.run, t.haltCause, t.pc, t.report)) =
      (.outOfBoundsFetch, .halted, .outOfBoundsFetch, 0xFFF#16, .fetchAddress 0xFFF#16) := by decide

/-- V5: an odd `pc`. -/
theorem test_fetch_odd :
    (let t := after { start 0x0000 [] with pc := 0x201#16, mem := [(0x201, 0x6A#8), (0x202, 0x55#8)] }
     (t.reg 0xA#4, t.pc)) = (0x55#8, 0x203#16) := by decide

/-- V6 -/
theorem test_unknown_word :
    (let t := after (start 0x0001 [])
     (t.status, t.pc, t.run, t.report)) = (.unknownOpcode, 0x202#16, .running, .unknownWord 0x0001#16 0x200#16) := by decide

/-- V212 -/
theorem test_halted_step :
    (let t := after { start 0x6ACD [] with run := .halted, haltCause := .halt }
     (t.status, t.pc, t.reg 0xA#4, t.haltCause)) = (.haltedError, 0x200#16, 0x00#8, .halt) := by decide

/-- V194, V195: a tick on a halted core. -/
theorem test_tick :
    (let t := after { start 0 [] with dt := 0xFF#8, run := .halted, hostActions := [.tick] }
     (t.dt, t.st, t.run)) = (0xFE#8, 0x00#8, .halted) := by decide

/-- E1, V213: a reset of a halted core; the last pair for an address counts. -/
theorem test_reset :
    (let t := after { start 0 [(0x1#4, 0x05#8)] with
       run := .halted, hostActions := [.reset { resetArgs 2 with program := [0x12#8, 0x00#8], memInit := [(0x300, 0x11#8), (0x200, 0x77#8), (0x300, 0x66#8)] }] }
     (t.run, t.pc, t.reg 0x1#4, bytes3 t 0x200, t.mem.read 0x300)) =
      (.running, 0x200#16, 0x00#8, [0x12#8, 0x00#8, 0x00#8], 0x66#8) := by decide

/-- V214 -/
theorem test_load_error : step { start 0 [] with hostActions := [.reset (resetArgs 3585)] } = .fault .loadError := by
  simp [step, performNext, nextAction, perform, hostReset, test_wellFormed_refuses_too_long_program]

/-! ## Witnesses: states and operands that meet the hypotheses of the obligations -/

/-- The reset state with one instruction cycle listed. -/
def ready : State := { State.reset with hostActions := [.step 0x0000#16 0x00#8] }

/-- The legacy shift and jump quirks and the auto-increment on. -/
def allQuirks : Quirks := { legacyShift := true, legacyJump := true, autoIncrementIndex := true }

/-- A word with an ignored nibble filled. -/
theorem witness_DecodedWordIsEncodingOnUsedBits : decodeWord 0x0AE0#16 = .ok .cls ∧ decodeWord 0xFF65#16 = .ok (.loadRegs 0xF#4) := by
  decide

/-- One word for each of the 35 rows, operand fields and ignored nibbles all ones. -/
theorem witness_DecodeFollowsOpcodeMap :
    ([(0x0F00#16, 0xF0FF#16, 0x0000#16), (0x0FE0#16, 0xF0FF#16, 0x00E0#16), (0x0FEE#16, 0xF0FF#16, 0x00EE#16),
      (0x1FFF#16, 0xF000#16, 0x1000#16), (0x2FFF#16, 0xF000#16, 0x2000#16), (0x3FFF#16, 0xF000#16, 0x3000#16),
      (0x4FFF#16, 0xF000#16, 0x4000#16), (0x5FFF#16, 0xF000#16, 0x5000#16), (0x9FFF#16, 0xF000#16, 0x9000#16),
      (0x6FFF#16, 0xF000#16, 0x6000#16), (0x7FFF#16, 0xF000#16, 0x7000#16), (0x8FF0#16, 0xF00F#16, 0x8000#16),
      (0x8FF1#16, 0xF00F#16, 0x8001#16), (0x8FF2#16, 0xF00F#16, 0x8002#16), (0x8FF3#16, 0xF00F#16, 0x8003#16),
      (0x8FF4#16, 0xF00F#16, 0x8004#16), (0x8FF5#16, 0xF00F#16, 0x8005#16), (0x8FF7#16, 0xF00F#16, 0x8007#16),
      (0x8FF6#16, 0xF00F#16, 0x8006#16), (0x8FFE#16, 0xF00F#16, 0x800E#16), (0xAFFF#16, 0xF000#16, 0xA000#16),
      (0xBFFF#16, 0xF000#16, 0xB000#16), (0xCFFF#16, 0xF000#16, 0xC000#16)].all fun r => (r.1 &&& r.2.1) == r.2.2) = true ∧
    ([(0xDFFF#16, 0xF000#16, 0xD000#16), (0xEF9E#16, 0xF0FF#16, 0xE09E#16), (0xEFA1#16, 0xF0FF#16, 0xE0A1#16),
      (0xFF07#16, 0xF0FF#16, 0xF007#16), (0xFF15#16, 0xF0FF#16, 0xF015#16), (0xFF18#16, 0xF0FF#16, 0xF018#16),
      (0xFF1E#16, 0xF0FF#16, 0xF01E#16), (0xFF0A#16, 0xF0FF#16, 0xF00A#16), (0xFF29#16, 0xF0FF#16, 0xF029#16),
      (0xFF33#16, 0xF0FF#16, 0xF033#16), (0xFF55#16, 0xF0FF#16, 0xF055#16), (0xFF65#16, 0xF0FF#16, 0xF065#16)].all
      fun r => (r.1 &&& r.2.1) == r.2.2) = true := by decide

/-- At the last address a word can be fetched from, with the cycle listed. -/
theorem witness_StepRunsDecodedInstruction :
    (let s := { ready with pc := 0xFFE#16, mem := [(0xFFE, 0x60#8), (0xFFF, 0x07#8)] }
     (s.run, decide (s.pc.toNat < 0xFFF), s.hostActions) = (.running, true, [.step 0x0000#16 0x00#8]) ∧
     decode [s.mem.read s.pc.toNat, s.mem.read (s.pc.toNat + 1)] = .ok (.ldImm 0x0#4 0x07#8, [])) := by decide

/-- Each kind of action listed, and none. -/
theorem witness_StepPerformsTheNextHostAction :
    ready.hostActions = .step 0x0000#16 0x00#8 :: [] ∧
    ({ ready with hostActions := [.tick, .tick] } : State).hostActions = .tick :: [.tick] ∧
    ({ ready with hostActions := [.reset (resetArgs 2)] } : State).hostActions = .reset (resetArgs 2) :: [] ∧
    State.reset.hostActions = [] := by decide

theorem witness_FetchIsBigEndianOrOutOfBounds :
    (let s := { ready with pc := 0xFFE#16 }; s.run = .running ∧ s.pc.toNat < 0xFFF) ∧
    (let s := { ready with pc := 0xFFF#16 }; s.run = .running ∧ 0xFFF ≤ s.pc.toNat) := by decide

theorem witness_UnknownWordIsSkippedAndReported :
    (let s := { ready with mem := [(0x200, 0x81#8), (0x201, 0x28#8)] }
     s.run = .running ∧ fetch s = some 0x8128#16 ∧ decodeWord 0x8128#16 = .error (.unknownOpcode 0x8128#16)) := by decide

theorem witness_HaltedStepIsNoOp : ({ ready with run := .halted } : State).run = .halted := by decide

/-- The highest and the lowest key end the wait; a held key does not. -/
theorem witness_AwaitStepStoresLowestPressedKey :
    (let s := { ready with run := .awaitKey, keyPrev := 0x0001#16 }
     s.run = .awaitKey ∧
     ((0x8001#16 : Word).getLsbD 15 = true ∧ s.keyPrev.getLsbD 15 = false ∧
       ∀ j < 15, (0x8001#16 : Word).getLsbD j = true → s.keyPrev.getLsbD j = true) ∧
     (∀ k < 16, (0x0001#16 : Word).getLsbD k = true → s.keyPrev.getLsbD k = true)) ∧
    (let s := { ready with run := .awaitKey }
     s.run = .awaitKey ∧ (0xFFFF#16 : Word).getLsbD 0 = true ∧ s.keyPrev.getLsbD 0 = false ∧
       ∀ j < 0, (0xFFFF#16 : Word).getLsbD j = true → s.keyPrev.getLsbD j = true) := by decide

/-- The state after an instruction cycle with no key and no random bit; the state itself where there is none. -/
def cycled (s : State) : State :=
  match instructionCycle 0x0000#16 0x00#8 s with
  | .next t => t
  | .fault _ => s
  | .refused _ => s

/-- The three run states. -/
theorem witness_StatusAndRunStateFollowTransitionTable :
    (instructionCycle 0x0000#16 0x00#8 ready = .next (cycled ready) ∧ ready.run = .running) ∧
    (let s := { ready with run := .awaitKey }; instructionCycle 0x0000#16 0x00#8 s = .next (cycled s) ∧ s.run = .awaitKey) ∧
    (let s := { ready with run := .halted, haltCause := .halt }
     instructionCycle 0x0000#16 0x00#8 s = .next (cycled s) ∧ s.run = .halted) :=
  ⟨⟨rfl, rfl⟩, ⟨rfl, rfl⟩, rfl, rfl⟩

/-- A failed fetch, and a fault of an instruction (RET with an empty stack). -/
theorem witness_FaultsAreHaltedPrecisely :
    (let s := { ready with pc := 0xFFF#16 }
     s.run = .running ∧ instructionCycle 0x0000#16 0x00#8 s = .next (cycled s) ∧ (cycled s).endedInFault ∧
     (cycled s).haltCause = .outOfBoundsFetch) ∧
    (let s := { ready with mem := [(0x201, 0xEE#8)] }
     s.run = .running ∧ instructionCycle 0x0000#16 0x00#8 s = .next (cycled s) ∧ (cycled s).endedInFault ∧
     (cycled s).haltCause ≠ .outOfBoundsFetch) :=
  ⟨⟨rfl, rfl, ⟨rfl, .inl rfl⟩, rfl⟩, rfl, rfl, ⟨rfl, .inr (.inr (.inl rfl))⟩, by decide⟩

/-- The longest program, with its first and last byte, the two ends of the font; `MEM_INIT` bytes beside the font, with the
last pair for an address after another, and an address no pair names; an address outside the memory. -/
theorem witness_HostResetBuildsTheResetState :
    (let s := { State.reset with hostActions := [.reset (resetArgs 3584)] }
     s.hostActions = .reset (resetArgs 3584) :: []) ∧
    (resetArgs 3584).program.length ≤ 3584 ∧ 0 < (resetArgs 3584).program.length ∧ 3583 < (resetArgs 3584).program.length ∧
    0 < 80 ∧ 79 < 80 ∧
    (let a := { resetArgs 2 with memInit := [(0x04F, 0x11#8), (0x04F, 0x22#8)] }
     a.program.length ≤ 3584 ∧ (0x04F < 0x1000 ∧ ¬(0x050 ≤ 0x04F ∧ 0x04F < 0x0A0) ∧ ¬(0x200 ≤ 0x04F ∧ 0x04F < 0x200 + a.program.length)) ∧
     a.memInit = [(0x04F, 0x11#8)] ++ (0x04F, 0x22#8) :: [] ∧ (∀ c ∈ ([] : List (Nat × Byte)), c.1 ≠ 0x04F) ∧
     (0xFFF < 0x1000 ∧ ¬(0x050 ≤ 0xFFF ∧ 0xFFF < 0x0A0) ∧ ¬(0x200 ≤ 0xFFF ∧ 0xFFF < 0x200 + a.program.length)) ∧
     (∀ c ∈ a.memInit, c.1 ≠ 0xFFF)) ∧
    0x1000 ≤ 0x1000 := by
  refine ⟨rfl, ?_, ?_, ?_, by decide, by decide, by decide, by decide⟩ <;> rw [resetArgs_length] <;> decide

theorem witness_ResetFailsExactlyOnTooLongProgram :
    ({ State.reset with hostActions := [.reset (resetArgs 3585)] } : State).hostActions = .reset (resetArgs 3585) :: [] ∧
    3584 < (resetArgs 3585).program.length ∧
    ({ State.reset with hostActions := [.reset (resetArgs 3584)] } : State).hostActions = .reset (resetArgs 3584) :: [] ∧
    (resetArgs 3584).program.length ≤ 3584 := by
  simp only [resetArgs_length]; decide

/-- A state at the ends of the invariant's ranges, with a live stack entry, and a step from it. -/
theorem witness_StepKeepsInvariant :
    (let s := { ready with i := 0x1000#16, sp := 1, stack := ready.stack.set 0 0x1000#16, mem := [(0x201, 0xEE#8)] }
     s.Inv ∧ step s = .next (after s)) := by
  refine ⟨⟨by decide, by decide, ?_, by decide, fun _ => rfl, by decide⟩, rfl⟩
  intro k w hk h
  obtain rfl : k = 0 := Nat.lt_one_iff.1 hk
  obtain rfl : 0x1000#16 = w := Option.some.inj h
  decide

theorem witness_HaltedIsTerminalUntilReset :
    ({ ready with run := .halted } : State).run = .halted ∧
    (∀ a, HostAction.reset a ∉ [HostAction.tick, .step 0x0020#16 0x01#8]) := by simp

/-- A stack of depth 1, a full one, an empty one. -/
theorem witness_RetPopsStackOrUnderflows :
    0 < ({ ready with sp := 1 } : State).sp.val ∧ 0 < ({ ready with sp := 16 } : State).sp.val ∧ ready.sp.val = 0 := by decide

/-- A jump to the next instruction and one to itself, at 0 and at the highest address. -/
theorem witness_JumpTakesAddressAndSelfJumpHalts :
    (0x202#12).toNat + 2 ≠ ({ ready with pc := 0x202#16 } : State).pc.toNat ∧
    (0x200#12).toNat + 2 = ({ ready with pc := 0x202#16 } : State).pc.toNat ∧
    (0x000#12).toNat + 2 = ({ ready with pc := 0x002#16 } : State).pc.toNat ∧
    (0xFFF#12).toNat + 2 = ({ ready with pc := 0x1001#16 } : State).pc.toNat := by decide

/-- The last entry free, and none. -/
theorem witness_CallPushesReturnAddressOrOverflows :
    ready.sp.val < 16 ∧ ({ ready with sp := 15 } : State).sp.val < 16 ∧ ({ ready with sp := 16 } : State).sp.val = 16 := by decide

theorem witness_OffsetJumpAddsTheRegisterOfTheMode :
    ({ ready with quirks := allQuirks } : State).quirks.legacyJump = true ∧ ready.quirks.legacyJump = false := by decide

/-- Sixteen calls on an empty stack, all of them returned from; and no call on a full one. -/
theorem witness_ReturnsUndoCallsInReverseOrder :
    ready.sp.val + (List.replicate 16 0x200#12).length ≤ 16 ∧ 16 ≤ (List.replicate 16 0x200#12).length ∧ ready.sp.val = 0 ∧
    ({ ready with sp := 16 } : State).sp.val + ([] : List Addr).length ≤ 16 := by decide

theorem witness_AddWritesSumThenNoOverflowFlag : (0xE#4 : Nibble) ≠ 0xF#4 := by decide

/-- The five cases of R135, for `x` and `y`. -/
theorem witness_SubWritesFlagThenDifference :
    ((0x0#4 : Nibble) ≠ 0xF#4 ∧ (0xE#4 : Nibble) ≠ 0xF#4) ∧ ((0xF#4 : Nibble) = 0xF#4 ∧ (0x0#4 : Nibble) ≠ 0xF#4) ∧
    ((0xE#4 : Nibble) ≠ 0xF#4 ∧ (0xF#4 : Nibble) = 0xF#4) ∧ ((0xF#4 : Nibble) = 0xF#4 ∧ (0xF#4 : Nibble) = 0xF#4) := by decide

/-- The same cases for SUBN (R137). -/
theorem witness_SubnWritesFlagThenDifferenceIntoY :
    ((0x0#4 : Nibble) ≠ 0xF#4 ∧ (0xE#4 : Nibble) ≠ 0xF#4) ∧ ((0x0#4 : Nibble) ≠ 0xF#4 ∧ (0xF#4 : Nibble) = 0xF#4) ∧
    ((0xF#4 : Nibble) = 0xF#4 ∧ (0xE#4 : Nibble) ≠ 0xF#4) ∧ ((0xF#4 : Nibble) = 0xF#4 ∧ (0xF#4 : Nibble) = 0xF#4) := by decide

theorem witness_ShiftRightHalvesAndKeepsLowBit :
    ((0xE#4 : Nibble) ≠ 0xF#4 ∧ ready.quirks.legacyShift = false) ∧
    ((0xE#4 : Nibble) ≠ 0xF#4 ∧ ({ ready with quirks := allQuirks } : State).quirks.legacyShift = true) ∧
    (0xF#4 : Nibble) = 0xF#4 := by decide

theorem witness_ShiftLeftDoublesAndKeepsHighBit :
    ((0xE#4 : Nibble) ≠ 0xF#4 ∧ ready.quirks.legacyShift = false) ∧
    ((0xE#4 : Nibble) ≠ 0xF#4 ∧ ({ ready with quirks := allQuirks } : State).quirks.legacyShift = true) ∧
    ((0xF#4 : Nibble) = 0xF#4 ∧ ready.quirks.legacyShift = false) ∧
    ((0xF#4 : Nibble) = 0xF#4 ∧ ({ ready with quirks := allQuirks } : State).quirks.legacyShift = true) := by decide

/-- Sums 0xFFF and 0x1000. -/
theorem witness_AddIndexWrapsAndFlagsAboveFFF :
    (let s := { ready with i := 0xFFF#16 }; s.i.toNat + (s.reg 0x0#4).toNat ≤ 0xFFF) ∧
    (let s := { ready with i := 0x1000#16 }; 0xFFF < s.i.toNat + (s.reg 0x0#4).toNat) := by decide

theorem witness_BcdStoresThreeDigits :
    (let s := { ready with i := 0xFFD#16 }; s.mem.wf = true ∧ s.i.toNat + 2 ≤ 0xFFF) := by decide

/-- One register at the last byte, all sixteen below it, with the last of them. -/
theorem witness_BulkStoreWritesRegistersToMemory :
    (let s := { ready with i := 0xFFF#16 }; s.mem.wf = true ∧ s.i.toNat + (0x0#4).toNat ≤ 0xFFF ∧ (0x0#4).toNat ≤ (0x0#4).toNat) ∧
    (let s := { ready with i := 0xFF0#16 }; s.mem.wf = true ∧ s.i.toNat + (0xF#4).toNat ≤ 0xFFF ∧ (0xF#4).toNat ≤ (0xF#4).toNat) := by
  decide

theorem witness_BulkLoadReadsRegistersFromMemory :
    (let s := { ready with i := 0xFFF#16 }; s.i.toNat + (0x0#4).toNat ≤ 0xFFF ∧ (0x0#4).toNat ≤ (0x0#4).toNat) ∧
    (let s := { ready with i := 0xFF0#16 }; s.i.toNat + (0xF#4).toNat ≤ 0xFFF ∧ (0xF#4).toNat ≤ (0xF#4).toNat) := by decide

/-- The first index out of range for each of the four instructions. -/
theorem witness_OutOfRangeAccessHaltsUndone :
    OutOfRange { ready with i := 0xFFE#16 } (.bcd 0x0#4) ∧ OutOfRange { ready with i := 0x1000#16 } (.storeRegs 0x0#4) ∧
    OutOfRange { ready with i := 0xFF1#16 } (.loadRegs 0xF#4) ∧ OutOfRange { ready with i := 0x1000#16 } (.drw 0x0#4 0x0#4 0x1#4) :=
  ⟨⟨3, rfl, by decide, by decide⟩, ⟨1, rfl, by decide, by decide⟩, ⟨16, rfl, by decide, by decide⟩, 1, rfl, by decide, by decide⟩

/-- The first two registers stored over the bytes at `pc`, and the last two. -/
theorem witness_StoreIsSeenByTheNextFetch :
    (let s := { ready with i := 0x200#16 }
     s.mem.wf = true ∧ s.i.toNat + (0x1#4).toNat ≤ 0xFFF ∧ (0x0#4).toNat + 1 ≤ (0x1#4).toNat ∧ s.pc.toNat = s.i.toNat + (0x0#4).toNat) ∧
    (let s := { ready with i := 0xFF0#16, pc := 0xFFE#16 }
     s.mem.wf = true ∧ s.i.toNat + (0xF#4).toNat ≤ 0xFFF ∧ (0xE#4).toNat + 1 ≤ (0xF#4).toNat ∧
     s.pc.toNat = s.i.toNat + (0xE#4).toNat) := by decide

/-- A lit pixel at 0x300 and a lit cell under it. -/
def drawing : State := { ready with i := 0x300#16, mem := [(0x300, 0x80#8)], disp := flipCell blankDisplay 0 0 }

theorem drawing_pixel : SpritePixelAt drawing 0x0#4 0x0#4 0x1#4 0 0 :=
  ⟨0, 0, by decide, by decide, by decide, rfl, rfl⟩

/-- The pixel at row 1, column 0 of the display is not the sprite's. -/
theorem drawing_no_pixel : ¬SpritePixelAt drawing 0x0#4 0x0#4 0x1#4 1 0 := by
  rintro ⟨r, c, hr, -, -, h, -⟩
  have e : (0 : Nat) + r = 1 := h
  have hr' : r < 1 := hr
  omega

/-- No row at any index, fifteen rows at the last index in range, and a cell on and one off the sprite, lit and with the
collision, and the surface with no collision. -/
theorem witness_DrawInvertsExactlyTheSpriteCells :
    (0x0#4).toNat = 0 ∧ ({ ready with i := 0xFF1#16 } : State).i.toNat + (0xF#4).toNat - 1 ≤ 0xFFF ∧
    drawing.i.toNat + (0x1#4).toNat - 1 ≤ 0xFFF ∧
    (∃ row < 32, ∃ col < 64, SpritePixelAt drawing 0x0#4 0x0#4 0x1#4 row col ∧ cellAt drawing.disp row col = true) ∧
    (∃ row < 32, ∃ col < 64, ¬SpritePixelAt drawing 0x0#4 0x0#4 0x1#4 row col) ∧
    ¬(∃ row < 32, ∃ col < 64, SpritePixelAt ready 0x0#4 0x0#4 0x0#4 row col ∧ cellAt ready.disp row col = true) :=
  ⟨rfl, by decide, by decide, ⟨0, by decide, 0, by decide, drawing_pixel, by decide⟩, ⟨1, by decide, 0, by decide, drawing_no_pixel⟩,
    fun ⟨_, _, _, _, ⟨_, _, h, _⟩, _⟩ => Nat.not_lt_zero _ h⟩

/-- The registers next to `VF`; a sprite that lights a cell at the first draw, and none. -/
theorem witness_DrawingTwiceRestoresTheDisplay :
    (0xE#4 : Nibble) ≠ 0xF#4 ∧ (0x0#4).toNat = 0 ∧ drawing.i.toNat + (0x1#4).toNat - 1 ≤ 0xFFF ∧
    (let s := { drawing with disp := blankDisplay }
     ∃ row < 32, ∃ col < 64, SpritePixelAt s 0x0#4 0x0#4 0x1#4 row col ∧ cellAt s.disp row col = false) ∧
    ¬(∃ row < 32, ∃ col < 64, SpritePixelAt ready 0x0#4 0x0#4 0x0#4 row col ∧ cellAt ready.disp row col = false) :=
  ⟨by decide, rfl, by decide,
    ⟨0, by decide, 0, by decide, ⟨0, 0, by decide, by decide, by decide, rfl, rfl⟩, by decide⟩,
    fun ⟨_, _, _, _, ⟨_, _, h, _⟩, _⟩ => Nat.not_lt_zero _ h⟩

theorem witness_OnlyCallAndRetTouchTheStack :
    exec .cls ready = .next (ready.setDisplay blankDisplay) ∧ (∀ nnn, Instr.cls ≠ .call nnn) ∧ Instr.cls ≠ .ret :=
  ⟨rfl, fun _ => by simp, by simp⟩

theorem witness_OnlyBcdAndBulkStoreWriteMemory :
    exec .cls ready = .next (ready.setDisplay blankDisplay) ∧ (∀ x, Instr.cls ≠ .bcd x) ∧ (∀ x, Instr.cls ≠ .storeRegs x) :=
  ⟨rfl, fun _ => by simp, fun _ => by simp⟩

theorem witness_OnlyClsAndDrwTouchTheDisplay :
    exec (.ldI 0xFFF#12) ready = .next (ready.setIndex 0xFFF#16) ∧ Instr.ldI 0xFFF#12 ≠ .cls ∧
    (∀ x y n, Instr.ldI 0xFFF#12 ≠ .drw x y n) :=
  ⟨rfl, by simp, fun _ _ _ => by simp⟩

/-- An instruction that changes `VF`. -/
theorem witness_FlagChangesOnlyByItsWriters :
    exec (.ldImm 0xF#4 0x01#8) ready = .next (ready.setReg 0xF#4 0x01#8) ∧
    (ready.setReg 0xF#4 0x01#8).reg 0xF#4 ≠ ready.reg 0xF#4 := ⟨rfl, by decide⟩

/-- Instructions that change the index, a timer and the latches. -/
theorem witness_IndexTimersAndLatchesChangeOnlyByTheirWriters :
    (exec (.ldI 0xFFF#12) ready = .next (ready.setIndex 0xFFF#16) ∧ (ready.setIndex 0xFFF#16).i ≠ ready.i) ∧
    (let s := ready.setReg 0x0#4 0x01#8
     exec (.ldDtVx 0x0#4) s = .next (s.setDelay 0x01#8) ∧ (s.setDelay 0x01#8).dt ≠ s.dt ∧
     exec (.ldStVx 0x0#4) s = .next (s.setSound 0x01#8) ∧ (s.setSound 0x01#8).st ≠ s.st) ∧
    exec (.ldVxK 0xF#4) ready = .next (enterKeyWait 0xF#4 ready) ∧ (enterKeyWait 0xF#4 ready).waitReg ≠ ready.waitReg :=
  ⟨⟨rfl, by decide⟩, ⟨rfl, by decide, rfl, by decide⟩, rfl, by decide⟩

theorem witness_ConfigurationAndInputsAreNeverWritten : exec .cls ready = .next (ready.setDisplay blankDisplay) := rfl

/-- An instruction that reads neither input. -/
theorem witness_InputsMatterOnlyToTheirReaders :
    (∀ x nn, Instr.cls ≠ .rnd x nn) ∧ (∀ x, Instr.cls ≠ .skp x) ∧ (∀ x, Instr.cls ≠ .sknp x) ∧ (∀ x, Instr.cls ≠ .ldVxK x) := by
  simp

end Sys2Proof.Tests
end

section
/-! SUPPORT. Frames: how they compose, and the frame of the operations every instruction cycle begins with. -/

namespace Sys2Proof.Machine

theorem Part.Same.trans {p : Part} {s t u : State} (hst : p.Same s t) (htu : p.Same t u) : p.Same s u := by
  cases p <;> exact Eq.trans htu hst

theorem OnlyChanges.trans {s t u : State} {may : Set Part} (hst : OnlyChanges s t may) (htu : OnlyChanges t u may) :
    OnlyChanges s u may := fun p hp => (hst p hp).trans (htu p hp)

theorem OnlyChanges.mono {s t : State} {may may' : Set Part} (h : OnlyChanges s t may) (hsub : may ⊆ may') :
    OnlyChanges s t may' := fun p hp => h p fun hmem => hp (hsub hmem)

theorem sampleInputs_onlyChanges (keys : Word) (rand : Byte) (s : State) :
    OnlyChanges s (sampleInputs keys rand s) {.keys, .rand} := by
  intro p hp
  cases p with
  | keys | rand => simp at hp
  | _ => rfl

theorem beginStep_onlyChanges (s : State) : OnlyChanges s (beginStep s) {.status, .displayDirty, .report} := by
  intro p hp
  cases p with
  | status | displayDirty | report => simp at hp
  | _ => rfl

theorem haltedStep_onlyChanges (s : State) : OnlyChanges s (haltedStep s) {.status} := by
  intro p hp
  cases p with
  | status => simp at hp
  | _ => rfl

/-- What every instruction cycle does before it looks at the run state writes only the ports (R10, R80). -/
theorem beginStep_sampleInputs_onlyChanges (keys : Word) (rand : Byte) (s : State) :
    OnlyChanges s (beginStep (sampleInputs keys rand s)) {.status, .displayDirty, .report, .keys, .rand} :=
  ((sampleInputs_onlyChanges keys rand s).mono (by simp [Set.insert_subset_iff])).trans
    ((beginStep_onlyChanges _).mono (by simp [Set.insert_subset_iff]))

end Sys2Proof.Machine
end

section
/-! PROOFS. The instruction cycle (40_instruction_cycle.md). -/

namespace Sys2Proof.Machine

/-- The cycle's branch for Halted (R81). -/
theorem instructionCycle_of_halted {s : State} (keys : Word) (rand : Byte) (h : s.run = .halted) :
    instructionCycle keys rand s = .next (haltedStep (beginStep (sampleInputs keys rand s))) := by
  simp [instructionCycle, h]

/-- Settles O9: the frame is that of the sampled inputs and the cleared outputs, followed by that of the halted step. -/
theorem haltedStepIsNoOp : Obligations.HaltedStepIsNoOp := by
  intro s keys rand hrun
  have hports := beginStep_sampleInputs_onlyChanges keys rand s
  have hstatus := haltedStep_onlyChanges (beginStep (sampleInputs keys rand s))
  exact ⟨_, instructionCycle_of_halted keys rand hrun, by simp [hrun], haltedStep_status _,
    hports.trans (hstatus.mono (by simp))⟩

end Sys2Proof.Machine
end

section
/-! PROOFS. Skips (42_skip.md, R110 to R114). -/

namespace Sys2Proof.Machine

theorem State.setPc_onlyChanges (s : State) (w : Word) : OnlyChanges s (s.setPc w) {.pc} := by
  intro p hp
  cases p with
  | pc => simp at hp
  | _ => rfl

theorem skipIf_onlyChanges (c : Bool) (s : State) : OnlyChanges s (skipIf c s) {.pc} := s.setPc_onlyChanges _

theorem exec_seImm (x : Nibble) (nn : Byte) (s : State) : exec (.seImm x nn) s = .next (skipIf (s.reg x == nn) s) := rfl

theorem exec_sneImm (x : Nibble) (nn : Byte) (s : State) : exec (.sneImm x nn) s = .next (skipIf (s.reg x != nn) s) := rfl

theorem exec_seReg (x y : Nibble) (s : State) : exec (.seReg x y) s = .next (skipIf (s.reg x == s.reg y) s) := rfl

theorem exec_sneReg (x y : Nibble) (s : State) : exec (.sneReg x y) s = .next (skipIf (s.reg x != s.reg y) s) := rfl

/-- What every skip does (R114): `test` is the condition as the rule writes it, `c` as the model computes it. -/
theorem exec_skip_spec {i : Instr} {s : State} {c : Bool} {test : Prop} [Decidable test]
    (hexec : exec i s = .next (skipIf c s)) (htest : c = true ↔ test) :
    ∃ t, exec i s = .next t ∧ t.pc = (if test then s.pc + 2#16 else s.pc) ∧ OnlyChanges s t {.pc} :=
  ⟨_, hexec, by simp only [skipIf_pc, htest], skipIf_onlyChanges c s⟩

/-- Settles O27: each of the four forms is a skip, on a Boolean equality test that reflects the rule's. -/
theorem registerSkipsTestEquality : Obligations.RegisterSkipsTestEquality := by
  intro s x y nn
  exact ⟨exec_skip_spec (exec_seImm x nn s) beq_iff_eq, exec_skip_spec (exec_sneImm x nn s) bne_iff_ne,
    exec_skip_spec (exec_seReg x y s) beq_iff_eq, exec_skip_spec (exec_sneReg x y s) bne_iff_ne⟩

end Sys2Proof.Machine
end

section
/-! PROOFS. Immediate loads and additions (43_load_add_immediate.md, R120, R121). -/

namespace Sys2Proof.Machine

/-- Writing a general register changes that register only; `VF` is one of the others unless it is the one written. -/
theorem State.setReg_onlyChanges (s : State) (r : Nibble) (b : Byte) : OnlyChanges s (s.setReg r b) {.reg r} := by
  intro p hp
  cases p with
  | reg q => exact s.reg_setReg_of_ne b fun hq => hp (by simp [hq])
  | _ => rfl

theorem exec_ldImm (x : Nibble) (nn : Byte) (s : State) : exec (.ldImm x nn) s = .next (s.setReg x nn) := rfl

theorem exec_addImm (x : Nibble) (nn : Byte) (s : State) : exec (.addImm x nn) s = .next (s.setReg x (s.reg x + nn)) := rfl

/-- Settles O29: both are one register write, whose frame is the destination; the sum is the addition of bytes. -/
theorem immediateLoadAndAdd : Obligations.ImmediateLoadAndAdd := by
  intro s x nn
  constructor
  · exact ⟨_, exec_ldImm x nn s, s.reg_setReg_self x nn, s.setReg_onlyChanges x nn⟩
  · have hsum : ((s.setReg x (s.reg x + nn)).reg x).toNat = ((s.reg x).toNat + nn.toNat) % 256 := by
      rw [State.reg_setReg_self, BitVec.toNat_add]
    exact ⟨_, exec_addImm x nn s, hsum, s.setReg_onlyChanges x _⟩

end Sys2Proof.Machine
end

section
/-! PROOFS. Moves, logic and the addition of class 8 (44_alu.md, R130 to R134). -/

namespace Sys2Proof.Machine

theorem exec_ldReg (x y : Nibble) (s : State) : exec (.ldReg x y) s = .next (s.setReg x (s.reg y)) := rfl

theorem exec_orReg (x y : Nibble) (s : State) : exec (.orReg x y) s = .next (s.setReg x (s.reg x ||| s.reg y)) := rfl

theorem exec_andReg (x y : Nibble) (s : State) : exec (.andReg x y) s = .next (s.setReg x (s.reg x &&& s.reg y)) := rfl

theorem exec_xorReg (x y : Nibble) (s : State) : exec (.xorReg x y) s = .next (s.setReg x (s.reg x ^^^ s.reg y)) := rfl

theorem exec_addReg (x y : Nibble) (s : State) :
    exec (.addReg x y) s = .next ((s.setReg x (s.reg x + s.reg y)).setFlag (addFlag (s.reg x) (s.reg y))) := rfl

theorem State.setFlag_onlyChanges (s : State) (b : Byte) : OnlyChanges s (s.setFlag b) {.reg vf} :=
  s.setReg_onlyChanges vf b

/-- The frame of an ALU operation that writes its destination and then the flag. -/
theorem State.setFlag_setReg_onlyChanges (s : State) (r : Nibble) (b f : Byte) :
    OnlyChanges s ((s.setReg r b).setFlag f) {.reg r, .reg vf} :=
  ((s.setReg_onlyChanges r b).mono (by simp)).trans ((State.setFlag_onlyChanges _ f).mono (by simp))

theorem toNat_flagByte (c : Bool) : (flagByte c).toNat = if c then 1 else 0 := by cases c <;> rfl

/-- The polarity of R134: 1 is "the true sum fits". -/
theorem toNat_addFlag (a b : Byte) : (addFlag a b).toNat = if a.toNat + b.toNat ≤ 255 then 1 else 0 := by
  simp only [addFlag, toNat_flagByte, decide_eq_true_eq]

/-- Settles O30: each of the four is one register write, whose frame is the destination; a bitwise operation on bytes acts on
each bit. -/
theorem moveAndLogicWriteOnlyTheDestination : Obligations.MoveAndLogicWriteOnlyTheDestination := by
  intro s x y
  refine ⟨⟨_, exec_ldReg x y s, s.reg_setReg_self x _, s.setReg_onlyChanges x _⟩,
    ⟨_, exec_orReg x y s, fun k => ?_, s.setReg_onlyChanges x _⟩,
    ⟨_, exec_andReg x y s, fun k => ?_, s.setReg_onlyChanges x _⟩,
    ⟨_, exec_xorReg x y s, fun k => ?_, s.setReg_onlyChanges x _⟩⟩
  · rw [State.reg_setReg_self, BitVec.getLsbD_or]
  · rw [State.reg_setReg_self, BitVec.getLsbD_and]
  · rw [State.reg_setReg_self, BitVec.getLsbD_xor]

/-- Settles O31: the flag is written last, so it is what `VF` holds whatever `x` is; any other destination keeps the
sum. -/
theorem addWritesSumThenNoOverflowFlag : Obligations.AddWritesSumThenNoOverflowFlag := by
  intro s x y
  refine ⟨_, exec_addReg x y s, ?flag, fun hx => ?sum, s.setFlag_setReg_onlyChanges x _ _⟩
  case flag => rw [show (0xF#4 : Nibble) = vf from rfl, State.reg_setFlag_vf, toNat_addFlag]
  case sum => rw [State.reg_setFlag_of_ne _ _ hx, State.reg_setReg_self, BitVec.toNat_add]

end Sys2Proof.Machine
end

section
/-! PROOFS. The index register (45_index_memory.md, R150). -/

namespace Sys2Proof.Machine

/-- `zext_16` keeps the value of every NNN (R63). -/
theorem toNat_addrWord (nnn : Addr) : (addrWord nnn).toNat = nnn.toNat := BitVec.toNat_setWidth_of_le (by decide)

theorem State.setIndex_onlyChanges (s : State) (w : Word) : OnlyChanges s (s.setIndex w) {.index} := by
  intro p hp
  cases p with
  | index => simp at hp
  | _ => rfl

theorem exec_ldI (nnn : Addr) (s : State) : exec (.ldI nnn) s = .next (s.setIndex (addrWord nnn)) := rfl

/-- Settles O36: the instruction is one write of the index register, of NNN zero-extended. -/
theorem loadIndexTakesAddress : Obligations.LoadIndexTakesAddress := by
  intro s nnn
  have hindex : (s.setIndex (addrWord nnn)).i.toNat = nnn.toNat := by rw [State.setIndex_i, toNat_addrWord]
  exact ⟨_, exec_ldI nnn s, hindex, s.setIndex_onlyChanges _⟩

end Sys2Proof.Machine
end

section
/-! PROOFS. The delay timer (47_keypad_timer_random.md, R183). -/

namespace Sys2Proof.Machine

theorem exec_ldVxDt (x : Nibble) (s : State) : exec (.ldVxDt x) s = .next (s.setReg x s.dt) := rfl

theorem exec_ldDtVx (x : Nibble) (s : State) : exec (.ldDtVx x) s = .next (s.setDelay (s.reg x)) := rfl

/-- The count-down of a timer byte is the truncated predecessor (R214). -/
theorem toNat_countDown (b : Byte) : (countDown b).toNat = b.toNat - 1 := by
  unfold countDown
  split
  case isTrue hzero => simp [hzero]
  case isFalse hpos => bv_omega

theorem toNat_dt_repeat_tick (s : State) (n : Nat) : (Nat.repeat tick n s).dt.toNat = s.dt.toNat - n := by
  induction n with
  | zero => rfl
  | succ n ih =>
    calc (tick (Nat.repeat tick n s)).dt.toNat
      _ = (Nat.repeat tick n s).dt.toNat - 1 := by rw [tick_dt, toNat_countDown]
      _ = s.dt.toNat - (n + 1) := by rw [ih, Nat.sub_sub]

/-- Settles O48: the read is one register write of the timer; `n` ticks take `n` off the value the write left there. -/
theorem delayTimerReadsBackLessTicks : Obligations.DelayTimerReadsBackLessTicks := by
  intro s x y n
  constructor
  case left => exact ⟨_, exec_ldVxDt x s, s.reg_setReg_self x s.dt, s.setReg_onlyChanges x s.dt⟩
  case right =>
    refine ⟨_, _, exec_ldDtVx y s, exec_ldVxDt x _, ?_⟩
    rw [State.reg_setReg_self, toNat_dt_repeat_tick, State.setDelay_dt]

end Sys2Proof.Machine
end

section
/-! PROOFS. The encoder and the decoder (30_encoding.md). -/

namespace Sys2Proof

/-! ## From an instruction to its word and back -/

/-- The word of an instruction decodes to it: the class and the sub-key select its row, and each operand is the field it was
assembled into (R66, R69). -/
theorem decodeWord_encode (i : Instr) : decodeWord (encode i) = .ok i := by
  cases i <;> simp [encode, decodeWord, decodeClass0, decodeClass8, decodeClassE, decodeClassF]

theorem Instr.wellFormed_eq_true (i : Instr) : i.wellFormed = true := by cases i <;> rfl

/-- Settles O1: the two bytes of a word make up the word again, and the word of an instruction decodes to it. -/
theorem decodeEncodeRoundTrip : Obligations.DecodeEncodeRoundTrip := by
  intro i rest
  refine ⟨i.wellFormed_eq_true, ?_⟩
  rw [decode_bytesOf, decodeWord_encode]

/-! ## The router by class (R86) -/

theorem decodeWord_class0 {w : Word} (h : opOf w = 0x0#4) : decodeWord w = decodeClass0 w := by simp [decodeWord, h]

theorem decodeWord_class8 {w : Word} (h : opOf w = 0x8#4) : decodeWord w = decodeClass8 w := by simp [decodeWord, h]

theorem decodeWord_classE {w : Word} (h : opOf w = 0xE#4) : decodeWord w = decodeClassE w := by simp [decodeWord, h]

theorem decodeWord_classF {w : Word} (h : opOf w = 0xF#4) : decodeWord w = decodeClassF w := by simp [decodeWord, h]

/-- Four classes have a sub-key; every word of another class is an instruction. -/
theorem decodeWord_cases (w : Word) :
    (opOf w = 0x0#4 ∧ decodeWord w = decodeClass0 w) ∨ (opOf w = 0x8#4 ∧ decodeWord w = decodeClass8 w) ∨
    (opOf w = 0xE#4 ∧ decodeWord w = decodeClassE w) ∨ (opOf w = 0xF#4 ∧ decodeWord w = decodeClassF w) ∨
    (opOf w ∉ [0x0#4, 0x8#4, 0xE#4, 0xF#4] ∧ ∃ i, decodeWord w = .ok i) := by
  have hclasses : ∀ op : Nibble, op = 0x0#4 ∨ op = 0x8#4 ∨ op = 0xE#4 ∨ op = 0xF#4 ∨
      op = 0x1#4 ∨ op = 0x2#4 ∨ op = 0x3#4 ∨ op = 0x4#4 ∨ op = 0x5#4 ∨ op = 0x6#4 ∨ op = 0x7#4 ∨ op = 0x9#4 ∨
      op = 0xA#4 ∨ op = 0xB#4 ∨ op = 0xC#4 ∨ op = 0xD#4 := by decide
  obtain h | h | h | h | hkeyless := hclasses (opOf w)
  · exact .inl ⟨h, decodeWord_class0 h⟩
  · exact .inr (.inl ⟨h, decodeWord_class8 h⟩)
  · exact .inr (.inr (.inl ⟨h, decodeWord_classE h⟩))
  · exact .inr (.inr (.inr (.inl ⟨h, decodeWord_classF h⟩)))
  · refine .inr (.inr (.inr (.inr ?_)))
    rcases hkeyless with h | h | h | h | h | h | h | h | h | h | h | h <;> simp [decodeWord, h]

/-! ## The rows of the opcode map (R66)

A masked word that is a row's match value has the row's class and sub-key. -/

theorem fields_of_class {w m : Word} (h : w &&& 0xF000#16 = m) : opOf w = opOf m := by
  rw [← encA_fields w, encA_and_class] at h
  rw [← h, opOf_encA]

theorem fields_of_subkeyByte {w m : Word} (h : w &&& 0xF0FF#16 = m) : opOf w = opOf m ∧ nnOf w = nnOf m := by
  rw [← encXK_fields w, encXK_and_subkey] at h
  rw [← h, opOf_encXK, nnOf_encXK]
  exact ⟨rfl, rfl⟩

theorem fields_of_subkeyNibble {w m : Word} (h : w &&& 0xF00F#16 = m) : opOf w = opOf m ∧ nOf w = nOf m := by
  rw [← encXYN_fields w, encXYN_and_subkey] at h
  rw [← h, opOf_encXYN, nOf_encXYN]
  exact ⟨rfl, rfl⟩

theorem decodeWord_of_row {w m : Word} {r : Except DecodeError Instr} (hrow : opOf w = opOf m → decodeWord w = r)
    (h : w &&& 0xF000#16 = m) : decodeWord w = r := hrow (fields_of_class h)

theorem decodeWord_of_rowByte {w m : Word} {r : Except DecodeError Instr}
    (hrow : opOf w = opOf m → nnOf w = nnOf m → decodeWord w = r) (h : w &&& 0xF0FF#16 = m) : decodeWord w = r :=
  hrow (fields_of_subkeyByte h).1 (fields_of_subkeyByte h).2

theorem decodeWord_of_rowNibble {w m : Word} {r : Except DecodeError Instr}
    (hrow : opOf w = opOf m → nOf w = nOf m → decodeWord w = r) (h : w &&& 0xF00F#16 = m) : decodeWord w = r :=
  hrow (fields_of_subkeyNibble h).1 (fields_of_subkeyNibble h).2

/-- Settles O3: the mask of a row keeps the class and the sub-key, and with both known the router has only the row's arm
left. The rows come in the map's order: class 0, eight without a sub-key, class 8, four without, class 0xE, class 0xF. -/
theorem decodeFollowsOpcodeMap : Obligations.DecodeFollowsOpcodeMap := by
  intro w
  refine ⟨?_, ?_, ?_, ?_, ?_, ?_, ?_, ?_, ?_, ?_, ?_, ?_, ?_, ?_, ?_, ?_, ?_, ?_, ?_, ?_, ?_, ?_, ?_, ?_, ?_, ?_, ?_,
    ?_, ?_, ?_, ?_, ?_, ?_, ?_, ?_⟩
  iterate 3 exact decodeWord_of_rowByte fun hop hnn => by rw [decodeWord_class0 hop, decodeClass0, hnn]; rfl
  iterate 8 exact decodeWord_of_row fun hop => by rw [decodeWord, hop]; rfl
  iterate 9 exact decodeWord_of_rowNibble fun hop hn => by rw [decodeWord_class8 hop, decodeClass8, hn]; rfl
  iterate 4 exact decodeWord_of_row fun hop => by rw [decodeWord, hop]; rfl
  iterate 2 exact decodeWord_of_rowByte fun hop hnn => by rw [decodeWord_classE hop, decodeClassE, hnn]; rfl
  iterate 9 exact decodeWord_of_rowByte fun hop hnn => by rw [decodeWord_classF hop, decodeClassF, hnn]; rfl

/-! ## The unknown words (R65) -/

theorem decodeClass0_unknown_iff {w : Word} :
    decodeClass0 w = .error (.unknownOpcode w) ↔ nnOf w ∉ [0x00#8, 0xE0#8, 0xEE#8] := by
  unfold decodeClass0
  split <;> simp_all

/-- The sub-keys R65 lists for class 8 are those its nine rows leave over. -/
theorem mem_unknown8_iff : ∀ n : Nibble, n ∈ [0x8#4, 0x9#4, 0xA#4, 0xB#4, 0xC#4, 0xD#4, 0xF#4] ↔
    n ∉ [0x0#4, 0x1#4, 0x2#4, 0x3#4, 0x4#4, 0x5#4, 0x6#4, 0x7#4, 0xE#4] := by decide

theorem decodeClass8_unknown_iff {w : Word} :
    decodeClass8 w = .error (.unknownOpcode w) ↔ nOf w ∈ [0x8#4, 0x9#4, 0xA#4, 0xB#4, 0xC#4, 0xD#4, 0xF#4] := by
  rw [mem_unknown8_iff]
  unfold decodeClass8
  split <;> simp_all

theorem decodeClassE_unknown_iff {w : Word} :
    decodeClassE w = .error (.unknownOpcode w) ↔ nnOf w ∉ [0x9E#8, 0xA1#8] := by
  unfold decodeClassE
  split <;> simp_all

theorem decodeClassF_unknown_iff {w : Word} :
    decodeClassF w = .error (.unknownOpcode w) ↔
      nnOf w ∉ [0x07#8, 0x0A#8, 0x15#8, 0x18#8, 0x1E#8, 0x29#8, 0x33#8, 0x55#8, 0x65#8] := by
  unfold decodeClassF
  split <;> simp_all

/-- The decoder refuses a word only by naming it. -/
theorem decodeWord_ok_or_unknown (w : Word) :
    (∃ i, decodeWord w = .ok i) ∨ decodeWord w = .error (.unknownOpcode w) := by
  obtain ⟨-, h⟩ | ⟨-, h⟩ | ⟨-, h⟩ | ⟨-, h⟩ | ⟨-, hok⟩ := decodeWord_cases w
  · rw [h, decodeClass0]; split <;> simp
  · rw [h, decodeClass8]; split <;> simp
  · rw [h, decodeClassE]; split <;> simp
  · rw [h, decodeClassF]; split <;> simp
  · exact .inl hok

/-- Settles O4: class by class, a word is refused exactly on the sub-keys its class's rows leave over. -/
theorem unknownWordsAreExactlyThoseListed : Obligations.UnknownWordsAreExactlyThoseListed := by
  intro w
  refine ⟨?_, decodeWord_ok_or_unknown w⟩
  change _ ↔ (opOf w = _ ∧ nnOf w ∉ _) ∨ (opOf w = _ ∧ nOf w ∈ _) ∨ (opOf w = _ ∧ nnOf w ∉ _) ∨
    (opOf w = _ ∧ nnOf w ∉ _)
  obtain ⟨hop, h⟩ | ⟨hop, h⟩ | ⟨hop, h⟩ | ⟨hop, h⟩ | ⟨hop, i, h⟩ := decodeWord_cases w
  · rw [h, decodeClass0_unknown_iff]; simp [hop]
  · rw [h, decodeClass8_unknown_iff]; simp [hop]
  · rw [h, decodeClassE_unknown_iff]; simp [hop]
  · rw [h, decodeClassF_unknown_iff]; simp [hop]
  · simp only [List.mem_cons, List.not_mem_nil, or_false, not_or] at hop
    simp [h, hop]

/-! ## From a word to its instruction and back (R64, R69) -/

theorem encXYN_and_operands (op x y n : Nibble) : encXYN op x y n &&& 0xFFF0#16 = encXYN op x y 0#4 := by
  apply BitVec.eq_of_getLsbD_eq
  intro i hi
  rw [BitVec.getLsbD_and, getLsbD_encXYN, getLsbD_encXYN]
  interval_cases i <;> simp

theorem word_and_allOnes (w : Word) : w &&& 0xFFFF#16 = w := BitVec.and_allOnes

theorem decodeClass0_usedBits {w : Word} {i : Instr} (hop : opOf w = 0x0#4) (h : decodeClass0 w = .ok i) :
    encode i = w &&& usedBits i := by
  have hw : w &&& 0xF0FF#16 = encXK 0x0#4 0x0#4 (nnOf w) := by
    conv_lhs => rw [← encXK_fields w, encXK_and_subkey, hop]
  unfold decodeClass0 at h
  split at h
  case h_4 => cases h
  all_goals next hnn => cases h; rw [hnn] at hw; exact hw.symm

theorem decodeClass8_usedBits {w : Word} {i : Instr} (hop : opOf w = 0x8#4) (h : decodeClass8 w = .ok i) :
    encode i = w &&& usedBits i := by
  have hw : w &&& 0xFFFF#16 = encXYN 0x8#4 (xOf w) (yOf w) (nOf w) := by rw [← hop, encXYN_fields, word_and_allOnes]
  unfold decodeClass8 at h
  split at h
  case h_10 => cases h
  all_goals next hn => cases h; rw [hn] at hw; exact hw.symm

theorem decodeClassE_usedBits {w : Word} {i : Instr} (hop : opOf w = 0xE#4) (h : decodeClassE w = .ok i) :
    encode i = w &&& usedBits i := by
  have hw : w &&& 0xFFFF#16 = encXK 0xE#4 (xOf w) (nnOf w) := by rw [← hop, encXK_fields, word_and_allOnes]
  unfold decodeClassE at h
  split at h
  case h_3 => cases h
  all_goals next hnn => cases h; rw [hnn] at hw; exact hw.symm

theorem decodeClassF_usedBits {w : Word} {i : Instr} (hop : opOf w = 0xF#4) (h : decodeClassF w = .ok i) :
    encode i = w &&& usedBits i := by
  have hw : w &&& 0xFFFF#16 = encXK 0xF#4 (xOf w) (nnOf w) := by rw [← hop, encXK_fields, word_and_allOnes]
  unfold decodeClassF at h
  split at h
  case h_10 => cases h
  all_goals next hnn => cases h; rw [hnn] at hw; exact hw.symm

/-- The router's last arm is class 0xF alone. -/
theorem eq_classF_of_notMem : ∀ op : Nibble, op ∉ [0x0#4, 0x1#4, 0x2#4, 0x3#4, 0x4#4, 0x5#4, 0x6#4, 0x7#4, 0x8#4, 0x9#4,
    0xA#4, 0xB#4, 0xC#4, 0xD#4, 0xE#4] → op = 0xF#4 := by decide

/-- Settles O2: a word is assembled from its fields, so with `op` known each arm of the router gives back the word its
operands were read from, but for the ignored nibbles of classes 0, 5 and 9. -/
theorem decodedWordIsEncodingOnUsedBits : Obligations.DecodedWordIsEncodingOnUsedBits := by
  intro w i h
  have hA : w &&& 0xFFFF#16 = encA (opOf w) (nnnOf w) := by rw [encA_fields, word_and_allOnes]
  have hXK : w &&& 0xFFFF#16 = encXK (opOf w) (xOf w) (nnOf w) := by rw [encXK_fields, word_and_allOnes]
  have hXYN : w &&& 0xFFFF#16 = encXYN (opOf w) (xOf w) (yOf w) (nOf w) := by rw [encXYN_fields, word_and_allOnes]
  have hXY : w &&& 0xFFF0#16 = encXYN (opOf w) (xOf w) (yOf w) 0x0#4 := by
    conv_lhs => rw [← encXYN_fields w, encXYN_and_operands]
  unfold decodeWord at h
  split at h
  case h_1 hop => exact decodeClass0_usedBits hop h
  case h_9 hop => exact decodeClass8_usedBits hop h
  case h_15 hop => exact decodeClassE_usedBits hop h
  case h_16 => exact decodeClassF_usedBits (eq_classF_of_notMem _ (by simp_all)) h
  case h_2 hop | h_3 hop | h_11 hop | h_12 hop => cases h; rw [hop] at hA; exact hA.symm
  case h_4 hop | h_5 hop | h_7 hop | h_8 hop | h_13 hop => cases h; rw [hop] at hXK; exact hXK.symm
  case h_6 hop | h_10 hop => cases h; rw [hop] at hXY; exact hXY.symm
  case h_14 hop => cases h; rw [hop] at hXYN; exact hXYN.symm

/-- Settles O5, by decoding the eight byte pairs. -/
theorem sampleWordsDecode : Obligations.SampleWordsDecode := by
  unfold Obligations.SampleWordsDecode
  decide

end Sys2Proof
end

section
/-! PROOFS. The invariant of every reachable state (R34): each operation keeps it, hence each instruction, each action of the
host, each step. -/

namespace Sys2Proof.Machine

/-! ## Operations -/

variable {s : State}

theorem State.Inv.setReg (h : s.Inv) (r : Nibble) (b : Byte) : (s.setReg r b).Inv :=
  ⟨h.index_le, h.pc_le, h.live_le, h.halted_cause, h.not_halted_cause, h.mem_wf⟩

theorem State.Inv.setFlag (h : s.Inv) (b : Byte) : (s.setFlag b).Inv := h.setReg vf b

theorem State.Inv.setDelay (h : s.Inv) (b : Byte) : (s.setDelay b).Inv :=
  ⟨h.index_le, h.pc_le, h.live_le, h.halted_cause, h.not_halted_cause, h.mem_wf⟩

theorem State.Inv.setSound (h : s.Inv) (b : Byte) : (s.setSound b).Inv :=
  ⟨h.index_le, h.pc_le, h.live_le, h.halted_cause, h.not_halted_cause, h.mem_wf⟩

theorem State.Inv.setDisplay (h : s.Inv) (d : Display) : (s.setDisplay d).Inv :=
  ⟨h.index_le, h.pc_le, h.live_le, h.halted_cause, h.not_halted_cause, h.mem_wf⟩

theorem State.Inv.setIndex (h : s.Inv) {w : Word} (hw : w.toNat ≤ 0x1000) : (s.setIndex w).Inv :=
  ⟨hw, h.pc_le, h.live_le, h.halted_cause, h.not_halted_cause, h.mem_wf⟩

theorem State.Inv.setPc (h : s.Inv) {w : Word} (hw : w.toNat ≤ 0x10FE) : (s.setPc w).Inv :=
  ⟨h.index_le, hw, h.live_le, h.halted_cause, h.not_halted_cause, h.mem_wf⟩

theorem State.Inv.setMem (h : s.Inv) {m : Memory} (hm : m.wf = true) : (s.setMem m).Inv :=
  ⟨h.index_le, h.pc_le, h.live_le, h.halted_cause, h.not_halted_cause, hm⟩

theorem State.Inv.setRegsFrom (h : s.Inv) (k : Nat) (l : List Byte) : (s.setRegsFrom k l).Inv := by
  induction l generalizing s k with
  | nil => exact h
  | cons b l ih => exact ih (h.setReg (BitVec.ofNat 4 k) b) (k + 1)

theorem State.Inv.haltEntry (h : s.Inv) {c : Status} (hc : c.isHaltCause = true) : (haltEntry c s).Inv :=
  ⟨h.index_le, h.pc_le, h.live_le, fun _ => hc, fun hrun => absurd rfl hrun, h.mem_wf⟩

theorem State.Inv.raise (h : s.Inv) {c : Status} (info : Report) (hc : c.isHaltCause = true) : (raise c info s).Inv :=
  ⟨h.index_le, h.pc_le, h.live_le, fun _ => hc, fun hrun => absurd rfl hrun, h.mem_wf⟩

/-- Of a data-accessing instruction only the effect of an access in range is left to look at. -/
theorem State.Inv.accessOr (h : s.Inv) {count : Nat} {t : State}
    (ht : count = 0 ∨ s.i.toNat + count ≤ Config.memSize → t.Inv) : (accessOr count s t).Inv := by
  obtain ⟨hin, e⟩ | ⟨-, e⟩ := accessOr_cases count s t
  · rw [e]; exact ht hin
  · rw [e]; exact h.raise _ rfl

/-- The index a bulk transfer in range leaves behind is at most one past the memory. -/
theorem toNat_index_advanced {i : Word} {x : Nibble} (hin : i.toNat + x.toNat ≤ 0xFFF) :
    (i + x.setWidth 16 + 1#16).toNat = i.toNat + x.toNat + 1 := by bv_omega

theorem State.Inv.autoIncrement (h : s.Inv) {x : Nibble} (hin : s.i.toNat + x.toNat ≤ 0xFFF) :
    (s.autoIncrement x).Inv := by
  unfold State.autoIncrement
  split
  · exact h.setIndex (by rw [toNat_index_advanced hin]; omega)
  · exact h

/-- The pushed return address is the only new live entry. -/
theorem State.Inv.pushReturn (h : s.Inv) {w : Word} {t : State} (hw : w.toNat ≤ 0x1000)
    (ht : pushReturn w s = some t) : t.Inv := by
  obtain ⟨hs, rfl⟩ := pushReturn_some ht
  refine ⟨h.index_le, h.pc_le, fun k u hk hu => ?_, h.halted_cause, h.not_halted_cause, h.mem_wf⟩
  change k < s.sp.val + 1 at hk
  change (s.stack.set s.sp.val w hs)[k]? = some u at hu
  rw [Vector.getElem?_set] at hu
  split at hu
  case isTrue => exact Option.some.inj hu ▸ hw
  case isFalse hne => exact h.live_le k u (by omega) hu

/-- A popped return address was a live entry, and the entries below it stay live. -/
theorem State.Inv.popReturn (h : s.Inv) {w : Word} {t : State} (ht : popReturn s = some (w, t)) :
    t.Inv ∧ w.toNat ≤ 0x1000 := by
  obtain ⟨hpos, hk, rfl, rfl⟩ := popReturn_some ht
  refine ⟨⟨h.index_le, h.pc_le, fun k u hlt hu => ?_, h.halted_cause, h.not_halted_cause, h.mem_wf⟩, ?_⟩
  · change k < s.sp.val - 1 at hlt
    exact h.live_le k u (by omega) hu
  · exact h.live_le (s.sp.val - 1) _ (by omega) (Vector.getElem?_eq_getElem hk)

theorem State.Inv.copyForShift (h : s.Inv) (x y : Nibble) : (s.copyForShift x y).Inv := by
  unfold State.copyForShift
  split
  · exact h.setReg x _
  · exact h

theorem State.Inv.subtractInto (h : s.Inv) (d r : Nibble) : (subtractInto d r s).Inv := (h.setFlag _).setReg d _

theorem State.Inv.skipIf (h : s.Inv) (c : Bool) (hpc : s.pc.toNat ≤ 0x1000) : (skipIf c s).Inv := by
  refine h.setPc ?_
  split
  · bv_omega
  · omega

theorem State.Inv.enterKeyWait (h : s.Inv) (x : Nibble) (hrun : s.run = .running) : (enterKeyWait x s).Inv :=
  ⟨h.index_le, h.pc_le, h.live_le, (fun e => nomatch e), fun _ => h.not_halted_cause (by simp [hrun]), h.mem_wf⟩

theorem State.Inv.awaitStep (h : s.Inv) (hrun : s.run = .awaitKey) : (awaitStep s).Inv := by
  have hcause : s.haltCause = .ok := h.not_halted_cause (by simp [hrun])
  unfold Machine.awaitStep
  split
  · exact ⟨h.index_le, h.pc_le, h.live_le, (fun e => nomatch e), fun _ => hcause, h.mem_wf⟩
  · exact ⟨h.index_le, h.pc_le, h.live_le, h.halted_cause, h.not_halted_cause, h.mem_wf⟩

theorem State.Inv.beginStep_sampleInputs (h : s.Inv) (keys : Word) (rand : Byte) :
    (beginStep (sampleInputs keys rand s)).Inv :=
  ⟨h.index_le, h.pc_le, h.live_le, h.halted_cause, h.not_halted_cause, h.mem_wf⟩

theorem State.Inv.tick (h : s.Inv) : (tick s).Inv :=
  ⟨h.index_le, h.pc_le, h.live_le, h.halted_cause, h.not_halted_cause, h.mem_wf⟩

/-! ## Values an instruction writes to `pc` and to `I` -/

theorem toNat_byteWord (b : Byte) : (byteWord b).toNat = b.toNat := BitVec.toNat_setWidth_of_le (by decide)

/-- The sum of the offset jump does not wrap in 16 bits (R104). -/
theorem toNat_addrWord_add_byteWord (nnn : Addr) (b : Byte) :
    (addrWord nnn + byteWord b).toNat = nnn.toNat + b.toNat := by
  rw [BitVec.toNat_add, toNat_addrWord, toNat_byteWord]
  omega

theorem toNat_glyphAddress (b : Byte) : (glyphAddress b).toNat = 0x050 + 5 * b.toNat := by
  simp only [glyphAddress, Config.fontBase, Config.glyphBytes, BitVec.toNat_ofNat]
  omega

/-! ## Instructions -/

/-- An instruction keeps the invariant from a state a fetch can lead to: Running, and `pc` advanced from inside the memory. -/
theorem State.Inv.exec (h : s.Inv) (hrun : s.run = .running) (hpc : s.pc.toNat ≤ 0x1000) {i : Instr} {t : State}
    (hexec : exec i s = .next t) : t.Inv := by
  have haddr (nnn : Addr) : (s.setPc (addrWord nnn)).Inv := h.setPc (by rw [toNat_addrWord]; omega)
  cases i <;> cases hexec
  case halt => exact h.haltEntry rfl
  case cls => exact h.setDisplay _
  case ret =>
    split
    case h_1 => exact h.haltEntry rfl
    case h_2 w u hpop =>
      obtain ⟨hu, hw⟩ := h.popReturn hpop
      exact hu.setPc (by omega)
  case jp nnn =>
    split
    case isTrue => exact (haddr nnn).haltEntry rfl
    case isFalse => exact haddr nnn
  case call nnn =>
    split
    case h_1 => exact h.haltEntry rfl
    case h_2 u hpush => exact (h.pushReturn hpc hpush).setPc (by rw [toNat_addrWord]; omega)
  case jpV0 nnn => exact h.setPc (by rw [toNat_addrWord_add_byteWord]; omega)
  case seImm | sneImm | seReg | sneReg | skp | sknp => exact h.skipIf _ hpc
  case ldImm | addImm | ldReg | orReg | andReg | xorReg | rnd | ldVxDt => exact h.setReg _ _
  case addReg => exact (h.setReg _ _).setFlag _
  case subReg | subnReg => exact h.subtractInto _ _
  case shrReg | shlReg => exact ((h.copyForShift _ _).setFlag _).setReg _ _
  case ldI nnn => exact h.setIndex (by rw [toNat_addrWord]; omega)
  case ldF x => exact h.setIndex (by rw [toNat_glyphAddress]; omega)
  case addI x =>
    change State.Inv (if 0xFFF < s.i.toNat + (s.reg x).toNat then _ else _)
    split
    case isTrue =>
      have hmod : (s.i.toNat + (s.reg x).toNat) % 0x1000 < 0x1000 := Nat.mod_lt _ (by decide)
      exact (h.setIndex (by rw [BitVec.toNat_ofNat, Config.memSize]; omega)).setFlag _
    case isFalse => exact h.setIndex (by rw [BitVec.toNat_ofNat]; omega)
  case drw => exact h.accessOr fun _ => (h.setDisplay _).setFlag _
  case ldDtVx => exact h.setDelay _
  case ldStVx => exact h.setSound _
  case ldVxK x => exact h.enterKeyWait x hrun
  case bcd x =>
    exact h.accessOr fun hin => h.setMem (Memory.storeBytes_wf (by rw [length_bcdDigits]; omega) h.mem_wf)
  case storeRegs x =>
    refine h.accessOr fun hin => ?_
    have hx : s.i.toNat + x.toNat + 1 ≤ Config.memSize := by omega
    have hstore : (s.setMem (s.mem.storeBytes s.i.toNat (s.regsUpTo x))).Inv :=
      h.setMem (Memory.storeBytes_wf (by rw [State.length_regsUpTo]; omega) h.mem_wf)
    exact hstore.autoIncrement (Nat.le_of_lt_succ hx)
  case loadRegs x =>
    refine h.accessOr fun hin => ?_
    have hx : s.i.toNat + x.toNat + 1 ≤ Config.memSize := by omega
    obtain ⟨v', hframe⟩ := s.setRegsFrom_frame 0 (s.mem.loadBytes s.i.toNat (x.toNat + 1))
    exact (h.setRegsFrom 0 _).autoIncrement (by rw [hframe]; exact Nat.le_of_lt_succ hx)

/-! ## The host's actions -/

/-- A successful fetch leaves `pc` inside the memory or just past it. -/
theorem toNat_pc_advance {iw : Word} (h : fetch s = some iw) : (advance s).pc.toNat = s.pc.toNat + 2 := by
  have := (fetch_some h).1
  rw [advance_pc]
  bv_omega

theorem State.Inv.runningStep (h : s.Inv) (hrun : s.run = .running) {t : State} (hstep : runningStep s = .next t) :
    t.Inv := by
  unfold Machine.runningStep at hstep
  split at hstep
  case h_1 => cases hstep; exact h.raise _ rfl
  case h_2 iw hfetch =>
    have hpc : (advance s).pc.toNat ≤ 0x1000 := by
      have := (fetch_some hfetch).1
      rw [toNat_pc_advance hfetch]; omega
    have hadv : (advance s).Inv := h.setPc (Nat.le_trans hpc (by decide))
    unfold executeWord at hstep
    split at hstep
    case h_1 i _ => exact hadv.exec hrun hpc hstep
    case h_2 =>
      cases hstep
      exact ⟨hadv.index_le, hadv.pc_le, hadv.live_le, hadv.halted_cause, hadv.not_halted_cause, hadv.mem_wf⟩

theorem State.Inv.instructionCycle (h : s.Inv) {keys : Word} {rand : Byte} {t : State}
    (hstep : instructionCycle keys rand s = .next t) : t.Inv := by
  have hbegin := h.beginStep_sampleInputs keys rand
  unfold Machine.instructionCycle at hstep
  split at hstep
  case h_1 =>
    cases hstep
    exact ⟨hbegin.index_le, hbegin.pc_le, hbegin.live_le, hbegin.halted_cause, hbegin.not_halted_cause, hbegin.mem_wf⟩
  case h_2 hrun => cases hstep; exact hbegin.awaitStep hrun
  case h_3 hrun => exact hbegin.runningStep hrun hstep

/-- Settles O17: every clause but the one on the stack is about a field with a fixed value, and no entry is live. -/
theorem resetMeetsInvariant : Obligations.ResetMeetsInvariant where
  index_le := by decide
  pc_le := by decide
  live_le k w hk := absurd hk (Nat.not_lt_zero k)
  halted_cause h := nomatch h
  not_halted_cause _ := rfl
  mem_wf := rfl

/-- A reset builds the reset state but for memory, and the image it builds there is canonical. -/
theorem construct_inv {a : ResetArgs} (hfits : a.programFits = true) (s : State) : (construct a s).Inv :=
  have h : State.reset.Inv := resetMeetsInvariant
  ⟨h.index_le, h.pc_le, h.live_le, h.halted_cause, h.not_halted_cause, resetImage_wf hfits⟩

theorem State.Inv.perform (h : s.Inv) {a : HostAction} {t : State} (hstep : perform a s = .next t) : t.Inv := by
  cases a with
  | step keys rand => exact h.instructionCycle hstep
  | tick => cases hstep; exact h.tick
  | reset args =>
    change hostReset args s = .next t at hstep
    unfold hostReset at hstep
    split at hstep
    case isTrue hfits => cases hstep; exact construct_inv hfits s
    case isFalse => cases hstep

theorem State.Inv.nextAction (h : s.Inv) : (nextAction s).2.Inv := by
  unfold Machine.nextAction
  split <;> exact ⟨h.index_le, h.pc_le, h.live_le, h.halted_cause, h.not_halted_cause, h.mem_wf⟩

/-- Settles O18: the step takes an action off the list, which the invariant does not look at, and performs it. -/
theorem stepKeepsInvariant : Obligations.StepKeepsInvariant := fun _ _ h hstep => h.nextAction.perform hstep

end Sys2Proof.Machine
end

section
/-! PROOFS. Control flow (41_control_flow.md, R100 to R104). -/

namespace Sys2Proof.Machine

/-- The frame of one change after another. -/
theorem OnlyChanges.comp {s t u : State} {may may' : Set Part} (hst : OnlyChanges s t may) (htu : OnlyChanges t u may') :
    OnlyChanges s u (may ∪ may') :=
  (hst.mono Set.subset_union_left).trans (htu.mono Set.subset_union_right)

/-! ## HALT, JP, JP V0 -/

theorem haltEntry_onlyChanges (c : Status) (s : State) : OnlyChanges s (haltEntry c s) {.run, .haltCause, .status} := by
  intro p hp
  cases p with
  | run | haltCause | status => simp at hp
  | _ => rfl

theorem exec_halt (s : State) : exec .halt s = .next (haltEntry .halt s) := rfl

/-- Settles O21: HALT is the halt entry, which writes the run state, the cause and the status. -/
theorem haltInstructionHaltsTheCore : Obligations.HaltInstructionHaltsTheCore := fun s =>
  ⟨_, exec_halt s, rfl, rfl, rfl, haltEntry_onlyChanges .halt s⟩

/-- The target is the address the jump was fetched from when it is two below the advanced `pc`. -/
theorem addrWord_eq_pc0_iff {nnn : Addr} {s : State} : addrWord nnn = s.pc0 ↔ nnn.toNat + 2 = s.pc.toNat := by
  rw [← BitVec.toNat_inj, toNat_addrWord, State.pc0, BitVec.toNat_sub]
  have := s.pc.isLt
  simp only [BitVec.toNat_ofNat]
  omega

theorem exec_jp_of_ne {nnn : Addr} {s : State} (h : nnn.toNat + 2 ≠ s.pc.toNat) :
    exec (.jp nnn) s = .next (s.setPc (addrWord nnn)) := by
  simp [exec, execJp, addrWord_eq_pc0_iff, h]

theorem exec_jp_of_eq {nnn : Addr} {s : State} (h : nnn.toNat + 2 = s.pc.toNat) :
    exec (.jp nnn) s = .next (haltEntry .infiniteLoop (s.setPc (addrWord nnn))) := by
  simp [exec, execJp, addrWord_eq_pc0_iff, h]

/-- Settles O23: the jump is one write of `pc`; a self-jump adds the halt entry. -/
theorem jumpTakesAddressAndSelfJumpHalts : Obligations.JumpTakesAddressAndSelfJumpHalts := by
  intro s nnn
  have hjump := s.setPc_onlyChanges (addrWord nnn)
  constructor
  case left => exact fun hne => ⟨_, exec_jp_of_ne hne, toNat_addrWord nnn, hjump⟩
  case right =>
    have hhalt := haltEntry_onlyChanges .infiniteLoop (s.setPc (addrWord nnn))
    exact fun heq => ⟨_, exec_jp_of_eq heq, toNat_addrWord nnn, rfl, rfl, rfl,
      (hjump.comp hhalt).mono (by simp [Set.insert_subset_iff])⟩

theorem exec_jpV0 (nnn : Addr) (s : State) :
    exec (.jpV0 nnn) s = .next (s.setPc (addrWord nnn + byteWord (s.jumpOffset nnn))) := rfl

/-- Settles O25: the mode picks the register, and the 16-bit sum is the sum of the two values. -/
theorem offsetJumpAddsTheRegisterOfTheMode : Obligations.OffsetJumpAddsTheRegisterOfTheMode := by
  intro s nnn
  refine ⟨_, exec_jpV0 nnn s, fun hlegacy => ?_, fun hmodern => ?_, s.setPc_onlyChanges _⟩
  · rw [State.setPc_pc, toNat_addrWord_add_byteWord, State.jumpOffset, if_pos hlegacy]
  · rw [State.setPc_pc, toNat_addrWord_add_byteWord, State.jumpOffset, if_neg (by simp [hmodern]), addrRegister]

/-! ## CALL and RET -/

theorem pushReturn_onlyChanges {w : Word} {s t : State} (h : pushReturn w s = some t) :
    OnlyChanges s t {.stackEntry s.sp.val, .depth} := by
  obtain ⟨hs, rfl⟩ := pushReturn_some h
  intro p hp
  cases p with
  | stackEntry k =>
    have hk : s.sp.val ≠ k := fun e => hp (by simp [e])
    exact Vector.getElem?_set_ne hs hk
  | depth => simp at hp
  | _ => rfl

theorem popReturn_onlyChanges {w : Word} {s t : State} (h : popReturn s = some (w, t)) : OnlyChanges s t {.depth} := by
  obtain ⟨-, _, -, rfl⟩ := popReturn_some h
  intro p hp
  cases p with
  | depth => simp at hp
  | _ => rfl

theorem exec_call_of_room {s : State} (nnn : Addr) (h : s.sp.val < 16) :
    ∃ t, pushReturn s.pc s = some t ∧ exec (.call nnn) s = .next (t.setPc (addrWord nnn)) := by
  cases hpush : pushReturn s.pc s with
  | none => exact absurd (pushReturn_none.1 hpush) (Nat.ne_of_lt h)
  | some t => exact ⟨t, rfl, by simp [exec, execCall, hpush]⟩

theorem exec_call_of_full {s : State} (nnn : Addr) (h : s.sp.val = 16) :
    exec (.call nnn) s = .next (haltEntry .stackOverflow s) := by
  simp [exec, execCall, pushReturn_none.2 h]

theorem exec_ret_of_live {s : State} (h : 0 < s.sp.val) :
    ∃ w t, popReturn s = some (w, t) ∧ exec .ret s = .next (t.setPc w) := by
  cases hpop : popReturn s with
  | none => exact absurd (popReturn_none.1 hpop) (Nat.ne_of_gt h)
  | some wt => exact ⟨wt.1, wt.2, rfl, by simp [exec, execRet, hpop]⟩

theorem exec_ret_of_empty {s : State} (h : s.sp.val = 0) : exec .ret s = .next (haltEntry .stackUnderflow s) := by
  simp [exec, execRet, popReturn_none.2 h]

/-- Settles O24: with room the push and the jump, else the halt entry alone. -/
theorem callPushesReturnAddressOrOverflows : Obligations.CallPushesReturnAddressOrOverflows := by
  intro s nnn
  constructor
  case left =>
    intro hroom
    obtain ⟨t, hpush, hexec⟩ := exec_call_of_room nnn hroom
    have hframe := (pushReturn_onlyChanges hpush).comp (t.setPc_onlyChanges (addrWord nnn))
    obtain ⟨hs, rfl⟩ := pushReturn_some hpush
    exact ⟨_, hexec, Vector.getElem?_set_self hs, rfl, toNat_addrWord nnn,
      hframe.mono (by simp [Set.insert_subset_iff])⟩
  case right =>
    exact fun hfull => ⟨_, exec_call_of_full nnn hfull, rfl, rfl, rfl, haltEntry_onlyChanges .stackOverflow s⟩

/-- Settles O22: with a live entry the pop and the jump to it, else the halt entry alone. -/
theorem retPopsStackOrUnderflows : Obligations.RetPopsStackOrUnderflows := by
  intro s
  constructor
  case left =>
    intro hlive
    obtain ⟨w, t, hpop, hexec⟩ := exec_ret_of_live hlive
    have hframe := (popReturn_onlyChanges hpop).comp (t.setPc_onlyChanges w)
    obtain ⟨-, hk, rfl, rfl⟩ := popReturn_some hpop
    exact ⟨_, hexec, (Vector.getElem?_eq_getElem hk).symm, rfl, hframe.mono (by simp)⟩
  case right =>
    exact fun hempty => ⟨_, exec_ret_of_empty hempty, rfl, rfl, rfl, haltEntry_onlyChanges .stackUnderflow s⟩

/-! ## Calls and returns in a row -/

/-- `t` stands where `s` does as far as returns can tell: same `pc`, same depth, same live entries. -/
structure SameCalls (s t : State) : Prop where
  pc_eq : t.pc = s.pc
  sp_eq : t.sp = s.sp
  live_eq : ∀ k < s.sp.val, t.stack[k]? = s.stack[k]?

theorem execAll_append {l l' : List Instr} {s t : State} (h : execAll l s = .next t) :
    execAll (l ++ l') s = execAll l' t := by
  induction l generalizing s with
  | nil => cases h; rfl
  | cons i l ih =>
    simp only [List.cons_append, execAll] at h ⊢
    cases he : exec i s with
    | next u => rw [he] at h; exact ih h
    | fault r => rw [he] at h; cases h
    | refused r => rw [he] at h; cases h

theorem execAll_cons {i : Instr} {l : List Instr} {s t : State} (h : exec i s = .next t) :
    execAll (i :: l) s = execAll l t := by simp [execAll, h]

/-- A return where the call led undoes the call. -/
theorem exec_ret_after_call {s u v : State} {nnn : Addr} (hroom : s.sp.val < 16) (hcall : exec (.call nnn) s = .next u)
    (hv : SameCalls u v) : ∃ w, exec .ret v = .next w ∧ SameCalls s w := by
  obtain ⟨u', hpush, hcall'⟩ := exec_call_of_room nnn hroom
  cases hcall.symm.trans hcall'
  obtain ⟨hs, rfl⟩ := pushReturn_some hpush
  obtain ⟨-, hsp, hlive⟩ := hv
  have hsp : v.sp.val = s.sp.val + 1 := congrArg Fin.val hsp
  obtain ⟨w, t, hpop, hret⟩ := exec_ret_of_live (s := v) (by omega)
  obtain ⟨-, hk, rfl, rfl⟩ := popReturn_some hpop
  refine ⟨_, hret, ?_, Fin.ext (by simp [hsp]), fun k hk => ?_⟩
  · have htop := hlive s.sp.val (Nat.lt_succ_self _)
    simp only [State.setPc_stack, Vector.getElem?_set_self hs] at htop
    simp only [State.setPc_pc, hsp, Nat.add_sub_cancel]
    exact Vector.getElem_eq_iff.2 htop
  · have hbelow := hlive k (Nat.lt_succ_of_lt hk)
    rwa [State.setPc_stack, Vector.getElem?_set_ne hs (Nat.ne_of_gt hk)] at hbelow

theorem execAll_calls (l : List Addr) (s : State) (hroom : s.sp.val + l.length ≤ 16) :
    ∃ t, execAll (l.map .call) s = .next t ∧ t.sp.val = s.sp.val + l.length := by
  induction l generalizing s with
  | nil => exact ⟨s, rfl, rfl⟩
  | cons a l ih =>
    rw [List.length_cons] at hroom
    obtain ⟨u, hcall, -, hsp, -⟩ := (callPushesReturnAddressOrOverflows s a).1 (by omega)
    obtain ⟨t, ht, hsp'⟩ := ih u (by omega)
    exact ⟨t, (execAll_cons hcall).trans ht, by rw [List.length_cons]; omega⟩

/-- As many returns as calls lead back to where the calls began. -/
theorem execAll_calls_returns (l : List Addr) (s : State) (hroom : s.sp.val + l.length ≤ 16) :
    ∃ t, execAll (l.map .call ++ List.replicate l.length .ret) s = .next t ∧ SameCalls s t := by
  induction l generalizing s with
  | nil => exact ⟨s, rfl, rfl, rfl, fun _ _ => rfl⟩
  | cons a l ih =>
    rw [List.length_cons] at hroom
    obtain ⟨u, hcall, -, hsp, -⟩ := (callPushesReturnAddressOrOverflows s a).1 (by omega)
    obtain ⟨v, hv, hsame⟩ := ih u (by omega)
    obtain ⟨w, hret, hw⟩ := exec_ret_after_call (by omega) hcall hsame
    refine ⟨w, ?_, hw⟩
    rw [List.length_cons, List.replicate_succ', ← List.append_assoc, List.map_cons, List.cons_append, List.cons_append,
      execAll_cons hcall, execAll_append hv, execAll_cons hret, execAll]

/-- Settles O26: the last `k` calls and the `k` returns cancel; with all calls cancelled on an empty stack the next return
underflows. -/
theorem returnsUndoCallsInReverseOrder : Obligations.ReturnsUndoCallsInReverseOrder := by
  intro s l hroom
  constructor
  case left =>
    intro k hk
    have hlen : (l.take (l.length - k)).length = l.length - k := List.length_take_of_le (Nat.sub_le _ _)
    have hlast : (l.drop (l.length - k)).length = k := by rw [List.length_drop]; omega
    obtain ⟨u, hu, hsp⟩ := execAll_calls (l.take (l.length - k)) s (by omega)
    obtain ⟨t, ht, hsame⟩ := execAll_calls_returns (l.drop (l.length - k)) u (by omega)
    refine ⟨t, u, ?_, hu, hsame.pc_eq, hsame.sp_eq⟩
    conv_lhs => rw [← List.take_append_drop (l.length - k) l, List.map_append, List.append_assoc]
    rw [execAll_append hu, ← ht, hlast]
  case right =>
    intro hempty
    obtain ⟨t, ht, hsame⟩ := execAll_calls_returns l s hroom
    have hret := exec_ret_of_empty (s := t) (by rw [hsame.sp_eq, hempty])
    refine ⟨haltEntry .stackUnderflow t, ?_, rfl, rfl⟩
    rw [List.replicate_succ', ← List.append_assoc, execAll_append ht, execAll_cons hret, execAll]

end Sys2Proof.Machine
end

section
/-! PROOFS. Subtractions and shifts of class 8 (44_alu.md, R135 to R138): the flag is written before the result, so it can be
an operand of the result (D8). -/

namespace Sys2Proof.Machine

/-! ## SUB and SUBN -/

theorem exec_subReg (x y : Nibble) (s : State) : exec (.subReg x y) s = .next (subtractInto x y s) := rfl

theorem exec_subnReg (x y : Nibble) (s : State) : exec (.subnReg x y) s = .next (subtractInto y x s) := rfl

/-- The polarity of R135 and R137: 1 is "no borrow". -/
theorem toNat_noBorrowFlag (a b : Byte) : (noBorrowFlag a b).toNat = if b.toNat ≤ a.toNat then 1 else 0 := by
  simp only [noBorrowFlag, toNat_flagByte, decide_eq_true_eq]

theorem toNat_sub_byte (a b : Byte) : ((a - b).toNat : Int) = (a.toNat - b.toNat : Int) % 256 := by
  rw [BitVec.toNat_sub]
  omega

theorem subtractInto_onlyChanges (d r : Nibble) (s : State) :
    OnlyChanges s (subtractInto d r s) {.reg d, .reg vf} :=
  ((s.setFlag_onlyChanges _).comp (State.setReg_onlyChanges _ d _)).mono (by simp)

/-- What the difference finds in a register: the flag just written, or the old value. -/
theorem reg_subtractInto_dest (d r : Nibble) (s : State) :
    (subtractInto d r s).reg d =
      (if d = vf then noBorrowFlag (s.reg d) (s.reg r) else s.reg d) -
      (if r = vf then noBorrowFlag (s.reg d) (s.reg r) else s.reg r) := by
  simp only [subtractInto, State.reg_setReg_self, State.reg_setFlag]

theorem toNat_subtractInto_flag {d r : Nibble} (hd : d ≠ vf) (s : State) :
    ((subtractInto d r s).reg vf).toNat = if (s.reg r).toNat ≤ (s.reg d).toNat then 1 else 0 := by
  rw [subtractInto, State.reg_setReg_of_ne _ _ hd.symm, State.reg_setFlag_vf, toNat_noBorrowFlag]

/-- The cases of R135's and R137's tables, by which of destination and subtrahend is register 0xF. -/
theorem subtractInto_spec (d r : Nibble) (s : State) :
    (d ≠ vf → r ≠ vf →
      ((subtractInto d r s).reg vf).toNat = (if (s.reg r).toNat ≤ (s.reg d).toNat then 1 else 0) ∧
      (((subtractInto d r s).reg d).toNat : Int) = ((s.reg d).toNat - (s.reg r).toNat : Int) % 256) ∧
    (d = vf → r ≠ vf →
      (((subtractInto d r s).reg vf).toNat : Int) =
        ((if (s.reg r).toNat ≤ (s.reg d).toNat then 1 else 0) - (s.reg r).toNat : Int) % 256) ∧
    (d ≠ vf → r = vf →
      ((subtractInto d r s).reg vf).toNat = (if (s.reg r).toNat ≤ (s.reg d).toNat then 1 else 0) ∧
      (((subtractInto d r s).reg d).toNat : Int) =
        ((s.reg d).toNat - (if (s.reg r).toNat ≤ (s.reg d).toNat then 1 else 0) : Int) % 256) ∧
    (d = vf → r = vf → (subtractInto d r s).reg vf = 0x00#8) := by
  refine ⟨fun hd hr => ⟨toNat_subtractInto_flag hd s, ?_⟩, fun hd hr => ?_,
    fun hd hr => ⟨toNat_subtractInto_flag hd s, ?_⟩, fun hd hr => ?_⟩
  · rw [reg_subtractInto_dest, if_neg hd, if_neg hr, toNat_sub_byte]
  · subst hd
    rw [reg_subtractInto_dest, if_pos rfl, if_neg hr, toNat_sub_byte, toNat_noBorrowFlag]
    push_cast
    rfl
  · rw [reg_subtractInto_dest, if_neg hd, if_pos hr, toNat_sub_byte, toNat_noBorrowFlag]
    push_cast
    rfl
  · subst hd hr
    rw [reg_subtractInto_dest, if_pos rfl, BitVec.sub_self]

/-- Settles O32: the subtraction into `x[X]`. -/
theorem subWritesFlagThenDifference : Obligations.SubWritesFlagThenDifference := fun s x y =>
  ⟨_, exec_subReg x y s, subtractInto_onlyChanges x y s, subtractInto_spec x y s⟩

/-- Settles O33: the subtraction into `x[Y]`, the roles of X and Y exchanged. -/
theorem subnWritesFlagThenDifferenceIntoY : Obligations.SubnWritesFlagThenDifferenceIntoY := by
  intro s x y
  obtain ⟨hneither, hdest, hsubtrahend, hboth⟩ := subtractInto_spec y x s
  exact ⟨_, exec_subnReg x y s, subtractInto_onlyChanges y x s, fun hx hy => hneither hy hx, fun hx hy => hdest hy hx,
    fun hx hy => hsubtrahend hy hx, fun hx hy => hboth hy hx⟩

/-! ## SHR and SHL -/

/-- What the two shifts have in common: copy (legacy), flag, shift, in this order. -/
def shiftInto (x y : Nibble) (flag shift : Byte → Byte) (s : State) : State :=
  let t := s.copyForShift x y
  let u := t.setFlag (flag (t.reg x))
  u.setReg x (shift (u.reg x))

theorem exec_shrReg (x y : Nibble) (s : State) :
    exec (.shrReg x y) s = .next (shiftInto x y lowBitFlag (· >>> 1) s) := rfl

theorem exec_shlReg (x y : Nibble) (s : State) :
    exec (.shlReg x y) s = .next (shiftInto x y highBitFlag (· <<< 1) s) := rfl

/-- The value that is shifted (R136, R138). -/
def shiftedValue (x y : Nibble) (s : State) : Byte := if s.quirks.legacyShift then s.reg y else s.reg x

theorem shiftedValue_modern {x y : Nibble} {s : State} (h : s.quirks.legacyShift = false) :
    shiftedValue x y s = s.reg x := by simp [shiftedValue, h]

theorem shiftedValue_legacy {x y : Nibble} {s : State} (h : s.quirks.legacyShift = true) :
    shiftedValue x y s = s.reg y := by simp [shiftedValue, h]

theorem reg_copyForShift_self (x y : Nibble) (s : State) : (s.copyForShift x y).reg x = shiftedValue x y s := by
  simp [State.reg_copyForShift, shiftedValue]

theorem copyForShift_onlyChanges (x y : Nibble) (s : State) : OnlyChanges s (s.copyForShift x y) {.reg x} := by
  unfold State.copyForShift
  split
  case isTrue => exact s.setReg_onlyChanges x _
  case isFalse => exact fun p _ => by cases p <;> rfl

theorem shiftInto_onlyChanges (x y : Nibble) (flag shift : Byte → Byte) (s : State) :
    OnlyChanges s (shiftInto x y flag shift s) {.reg x, .reg vf} :=
  (((copyForShift_onlyChanges x y s).comp (State.setFlag_onlyChanges _ _)).comp (State.setReg_onlyChanges _ x _)).mono
    (by simp [Set.insert_subset_iff])

section
variable {x y : Nibble} {flag shift : Byte → Byte} {s : State}

theorem reg_vf_shiftInto (hx : x ≠ vf) : (shiftInto x y flag shift s).reg vf = flag (shiftedValue x y s) := by
  rw [shiftInto, State.reg_setReg_of_ne _ _ hx.symm, State.reg_setFlag_vf, reg_copyForShift_self]

theorem reg_dest_shiftInto (hx : x ≠ vf) : (shiftInto x y flag shift s).reg x = shift (shiftedValue x y s) := by
  rw [shiftInto, State.reg_setReg_self, State.reg_setFlag_of_ne _ _ hx, reg_copyForShift_self]

/-- With X = 0xF it is the flag that is shifted. -/
theorem reg_shiftInto_vf : (shiftInto vf y flag shift s).reg vf = shift (flag (shiftedValue vf y s)) := by
  rw [shiftInto, State.reg_setReg_self, State.reg_setFlag_vf, reg_copyForShift_self]

end

theorem toNat_lowBitFlag (b : Byte) : (lowBitFlag b).toNat = b.toNat % 2 := by
  rw [lowBitFlag, BitVec.toNat_and]
  exact Nat.and_one_is_mod b.toNat

theorem toNat_highBitFlag (b : Byte) : (highBitFlag b).toNat = b.toNat / 128 := by
  rw [highBitFlag, BitVec.toNat_ushiftRight, Nat.shiftRight_eq_div_pow]

theorem toNat_shiftRight_one (b : Byte) : (b >>> 1).toNat = b.toNat / 2 := by
  rw [BitVec.toNat_ushiftRight, Nat.shiftRight_eq_div_pow]

theorem toNat_shiftLeft_one (b : Byte) : (b <<< 1).toNat = 2 * b.toNat % 256 := by
  rw [BitVec.toNat_shiftLeft, Nat.shiftLeft_eq, Nat.mul_comm]

/-- Settles O34: bit 0 and the half of the shifted value; the half of a flag is 0. -/
theorem shiftRightHalvesAndKeepsLowBit : Obligations.ShiftRightHalvesAndKeepsLowBit := by
  intro s x y
  refine ⟨_, exec_shrReg x y s, shiftInto_onlyChanges x y _ _ s, fun hx hq => ?_, fun hx hq => ?_, ?_⟩
  · rw [← vf, reg_vf_shiftInto hx, reg_dest_shiftInto hx, toNat_lowBitFlag, toNat_shiftRight_one, shiftedValue_modern hq]
    exact ⟨rfl, rfl⟩
  · rw [← vf, reg_vf_shiftInto hx, reg_dest_shiftInto hx, toNat_lowBitFlag, toNat_shiftRight_one, shiftedValue_legacy hq]
    exact ⟨rfl, rfl⟩
  · rintro rfl
    rw [← vf, reg_shiftInto_vf, ← BitVec.toNat_inj, toNat_shiftRight_one, toNat_lowBitFlag]
    exact Nat.div_eq_of_lt (Nat.mod_lt _ Nat.two_pos)

/-- Settles O35: bit 7 and the double of the shifted value; the double of a flag does not wrap. -/
theorem shiftLeftDoublesAndKeepsHighBit : Obligations.ShiftLeftDoublesAndKeepsHighBit := by
  intro s x y
  refine ⟨_, exec_shlReg x y s, shiftInto_onlyChanges x y _ _ s, fun hx hq => ?_, fun hx hq => ?_, ?_⟩
  · rw [← vf, reg_vf_shiftInto hx, reg_dest_shiftInto hx, toNat_highBitFlag, toNat_shiftLeft_one, shiftedValue_modern hq]
    exact ⟨rfl, rfl⟩
  · rw [← vf, reg_vf_shiftInto hx, reg_dest_shiftInto hx, toNat_highBitFlag, toNat_shiftLeft_one, shiftedValue_legacy hq]
    exact ⟨rfl, rfl⟩
  · have hflag : x = vf → ((shiftInto x y highBitFlag (· <<< 1) s).reg vf).toNat =
        2 * ((shiftedValue x y s).toNat / 128) := by
      rintro rfl
      rw [reg_shiftInto_vf, toNat_shiftLeft_one, toNat_highBitFlag]
      have := (shiftedValue vf y s).isLt
      omega
    exact ⟨fun hx hq => by rw [← vf, hflag hx, shiftedValue_modern hq],
      fun hx hq => by rw [← vf, hflag hx, shiftedValue_legacy hq]⟩

end Sys2Proof.Machine
end

section
/-! PROOFS. Index register and memory transfer (45_index_memory.md, R151 to R156; 20_memory.md, R46, R52). -/

namespace Sys2Proof.Machine

/-! ## ADD I and LD F -/

theorem exec_addI_of_le {x : Nibble} {s : State} (h : s.i.toNat + (s.reg x).toNat ≤ 0xFFF) :
    exec (.addI x) s = .next (s.setIndex (BitVec.ofNat 16 (s.i.toNat + (s.reg x).toNat))) := by
  simp [exec, execAddI, Config.maxAddr, Nat.not_lt.2 h]

theorem exec_addI_of_gt {x : Nibble} {s : State} (h : 0xFFF < s.i.toNat + (s.reg x).toNat) :
    exec (.addI x) s =
      .next ((s.setIndex (BitVec.ofNat 16 ((s.i.toNat + (s.reg x).toNat) % 0x1000))).setFlag 0x01#8) := by
  simp [exec, execAddI, Config.maxAddr, Config.memSize, h]

/-- Settles O37: in both branches the new index fits 16 bits; only the second writes the flag. -/
theorem addIndexWrapsAndFlagsAboveFFF : Obligations.AddIndexWrapsAndFlagsAboveFFF := by
  intro s x
  constructor
  case left =>
    intro hle
    have hindex : (BitVec.ofNat 16 (s.i.toNat + (s.reg x).toNat)).toNat = s.i.toNat + (s.reg x).toNat := by
      rw [BitVec.toNat_ofNat]; omega
    exact ⟨_, exec_addI_of_le hle, hindex, s.setIndex_onlyChanges _⟩
  case right =>
    intro hgt
    have hindex : (BitVec.ofNat 16 ((s.i.toNat + (s.reg x).toNat) % 0x1000)).toNat =
        (s.i.toNat + (s.reg x).toNat) % 0x1000 := by
      rw [BitVec.toNat_ofNat]; omega
    exact ⟨_, exec_addI_of_gt hgt, hindex, State.reg_setFlag_vf _ _,
      (s.setIndex_onlyChanges _).comp (State.setFlag_onlyChanges _ _)⟩

theorem exec_ldF (x : Nibble) (s : State) : exec (.ldF x) s = .next (s.setIndex (glyphAddress (s.reg x))) := rfl

/-- Settles O38: one write of the index register, of an address that fits 16 bits. -/
theorem loadGlyphAddress : Obligations.LoadGlyphAddress := fun s x =>
  ⟨_, exec_ldF x s, toNat_glyphAddress (s.reg x), s.setIndex_onlyChanges _⟩

/-! ## Frames of the transfers -/

theorem storeBytes_onlyChanges (s : State) (a : Nat) (l : List Byte) :
    OnlyChanges s (s.setMem (s.mem.storeBytes a l)) {p | ∃ k < l.length, p = .byte (a + k)} := by
  intro p hp
  cases p with
  | byte b =>
    refine Memory.read_storeBytes_outside (Decidable.by_contra fun hin => hp ⟨b - a, ?_, ?_⟩)
    · omega
    · rw [Nat.add_sub_cancel' (by omega)]
  | _ => rfl

theorem setRegsFrom_onlyChanges (s : State) (l : List Byte) (hl : l.length ≤ 16) :
    OnlyChanges s (s.setRegsFrom 0 l) {p | ∃ k : Nibble, k.toNat < l.length ∧ p = .reg k} := by
  obtain ⟨v', hframe⟩ := s.setRegsFrom_frame 0 l
  intro p hp
  cases p with
  | reg q =>
    have hq : ¬(0 ≤ q.toNat ∧ q.toNat - 0 < l.length) := fun h => hp ⟨q, h.2, rfl⟩
    exact (s.reg_setRegsFrom 0 l q (by omega)).trans (dif_neg hq)
  | _ => rw [hframe]; rfl

theorem autoIncrement_onlyChanges (s : State) (x : Nibble) :
    OnlyChanges s (s.autoIncrement x) {p | p = .index ∧ s.quirks.autoIncrementIndex = true} := by
  unfold State.autoIncrement
  split
  case isTrue hquirk => exact (s.setIndex_onlyChanges _).mono (Set.singleton_subset_iff.2 ⟨rfl, hquirk⟩)
  case isFalse => exact fun p _ => by cases p <;> rfl

theorem raise_onlyChanges (c : Status) (info : Report) (s : State) :
    OnlyChanges s (raise c info s) {.run, .haltCause, .status, .report} := by
  intro p hp
  cases p with
  | run | haltCause | status | report => simp at hp
  | _ => rfl

theorem toNat_i_autoIncrement {s : State} {x : Nibble} (hin : s.i.toNat + x.toNat ≤ 0xFFF) :
    (s.autoIncrement x).i.toNat =
      if s.quirks.autoIncrementIndex = true then s.i.toNat + x.toNat + 1 else s.i.toNat := by
  rw [State.autoIncrement_i]
  split
  · exact toNat_index_advanced hin
  · rfl

/-! ## BCD and the bulk transfers, in range -/

theorem exec_bcd_inRange {x : Nibble} {s : State} (h : s.i.toNat + 2 ≤ 0xFFF) :
    exec (.bcd x) s = .next (s.setMem (s.mem.storeBytes s.i.toNat (bcdDigits (s.reg x)))) :=
  congrArg Host.Outcome.next (accessOr_inRange (.inr (Nat.succ_le_succ h)))

theorem exec_storeRegs_inRange {x : Nibble} {s : State} (h : s.i.toNat + x.toNat ≤ 0xFFF) :
    exec (.storeRegs x) s = .next ((s.setMem (s.mem.storeBytes s.i.toNat (s.regsUpTo x))).autoIncrement x) :=
  congrArg Host.Outcome.next (accessOr_inRange (.inr (Nat.succ_le_succ h)))

theorem exec_loadRegs_inRange {x : Nibble} {s : State} (h : s.i.toNat + x.toNat ≤ 0xFFF) :
    exec (.loadRegs x) s =
      .next ((s.setRegsFrom 0 (s.mem.loadBytes s.i.toNat (x.toNat + 1))).autoIncrement x) :=
  congrArg Host.Outcome.next (accessOr_inRange (.inr (Nat.succ_le_succ h)))

/-- Each digit fits a byte. -/
theorem map_toNat_bcdDigits (b : Byte) :
    (bcdDigits b).map BitVec.toNat = [b.toNat / 100, b.toNat / 10 % 10, b.toNat % 10] := by
  have hb := b.isLt
  simp only [bcdDigits, List.map_cons, List.map_nil, BitVec.toNat_ofNat, List.cons.injEq, and_true]
  omega

theorem toNat_getElem_bcdDigits (b : Byte) {k : Nat} (hk : k < (bcdDigits b).length) :
    (bcdDigits b)[k].toNat = [b.toNat / 100, b.toNat / 10 % 10, b.toNat % 10][k]'hk := by
  simp only [← map_toNat_bcdDigits, List.getElem_map]

/-- Settles O39: the three stored bytes are the digits, from which a byte is computed back. -/
theorem bcdStoresThreeDigits : Obligations.BcdStoresThreeDigits := by
  intro s x hwf hin
  have hroom : s.i.toNat + (bcdDigits (s.reg x)).length ≤ Config.memSize := Nat.succ_le_succ hin
  have hread (k : Nat) (hk : k < 3) :
      ((s.mem.storeBytes s.i.toNat (bcdDigits (s.reg x))).read (s.i.toNat + k)).toNat =
        [(s.reg x).toNat / 100, (s.reg x).toNat / 10 % 10, (s.reg x).toNat % 10][k] :=
    (congrArg BitVec.toNat (Memory.read_storeBytes_inside hroom hwf hk)).trans (toNat_getElem_bcdDigits _ hk)
  have hhundreds := hread 0 (by decide)
  have htens := hread 1 (by decide)
  have hones := hread 2 (by decide)
  simp only [Nat.add_zero, List.getElem_cons_zero, List.getElem_cons_succ] at hhundreds htens hones
  refine ⟨_, exec_bcd_inRange hin, hhundreds, htens, hones, ?_, ?_, Memory.storeBytes_wf hroom hwf⟩
  · rw [State.setMem_mem, hhundreds, htens, hones]
    omega
  · refine (storeBytes_onlyChanges s _ _).mono ?_
    rintro _ ⟨k, hk, rfl⟩
    rw [length_bcdDigits] at hk
    interval_cases k <;> simp

/-- The byte at `I + k` after a bulk store in range. -/
theorem read_bulkStore {s : State} {x k : Nibble} (hwf : s.mem.wf = true) (hin : s.i.toNat + x.toNat ≤ 0xFFF)
    (hk : k.toNat ≤ x.toNat) :
    (s.mem.storeBytes s.i.toNat (s.regsUpTo x)).read (s.i.toNat + k.toNat) = s.reg k := by
  have hroom : s.i.toNat + (s.regsUpTo x).length ≤ Config.memSize := by
    rw [State.length_regsUpTo]; exact Nat.succ_le_succ hin
  rw [Memory.read_storeBytes_inside hroom hwf (by rw [State.length_regsUpTo]; omega), State.getElem_regsUpTo,
    BitVec.ofNat_toNat, BitVec.setWidth_eq]

/-- Settles O40: the stored bytes are the registers, in order; `I` moves only with the quirk. -/
theorem bulkStoreWritesRegistersToMemory : Obligations.BulkStoreWritesRegistersToMemory := by
  intro s x hwf hin
  have hroom : s.i.toNat + (s.regsUpTo x).length ≤ Config.memSize := by
    rw [State.length_regsUpTo]; exact Nat.succ_le_succ hin
  refine ⟨_, exec_storeRegs_inRange hin, fun k hk => ?_, toNat_i_autoIncrement hin, ?_, ?_⟩
  · rw [State.autoIncrement_mem]; exact read_bulkStore hwf hin hk
  · refine ((storeBytes_onlyChanges s _ _).comp (autoIncrement_onlyChanges _ x)).mono (Set.union_subset ?_ ?_)
    · rintro _ ⟨k, hk, rfl⟩
      rw [State.length_regsUpTo] at hk
      exact .inr ⟨k, Nat.le_of_lt_succ hk, rfl⟩
    · rintro _ ⟨rfl, -⟩
      simp
  · rw [State.autoIncrement_mem]; exact Memory.storeBytes_wf hroom hwf

/-- Settles O41: register `k` takes the `k`-th byte loaded; `I` moves only with the quirk. -/
theorem bulkLoadReadsRegistersFromMemory : Obligations.BulkLoadReadsRegistersFromMemory := by
  intro s x hin
  have hlen : (s.mem.loadBytes s.i.toNat (x.toNat + 1)).length = x.toNat + 1 := Memory.length_loadBytes ..
  have hx := x.isLt
  refine ⟨_, exec_loadRegs_inRange hin, fun k hk => ?_, ?_, ?_⟩
  · rw [State.autoIncrement_reg, State.reg_setRegsFrom _ _ _ _ (by omega), dif_pos ⟨Nat.zero_le _, by omega⟩,
      Memory.getElem_loadBytes, Nat.sub_zero]
  · obtain ⟨v', hframe⟩ := s.setRegsFrom_frame 0 (s.mem.loadBytes s.i.toNat (x.toNat + 1))
    rw [hframe]
    exact toNat_i_autoIncrement (s := { s with v := v' }) hin
  · refine ((setRegsFrom_onlyChanges s _ (by omega)).comp (autoIncrement_onlyChanges _ x)).mono (Set.union_subset ?_ ?_)
    · rintro _ ⟨k, hk, rfl⟩
      exact .inr ⟨k, by omega, rfl⟩
    · rintro _ ⟨rfl, -⟩
      simp

/-- Settles O43: the two bytes at `pc`, which the store does not move, are registers `k` and `k + 1`. -/
theorem storeIsSeenByTheNextFetch : Obligations.StoreIsSeenByTheNextFetch := by
  intro s x k hwf hin hk hpc
  refine ⟨_, exec_storeRegs_inRange hin, ?_⟩
  have hnext : (k + 1#4).toNat = k.toNat + 1 := by have := x.isLt; bv_omega
  have hlow := read_bulkStore (k := k + 1#4) hwf hin (by omega)
  rw [hnext, ← Nat.add_assoc] at hlow
  rw [fetch, if_pos (by simp only [State.autoIncrement_pc, State.setMem_pc, Config.maxAddr]; omega)]
  simp only [State.autoIncrement_pc, State.setMem_pc, State.autoIncrement_mem, State.setMem_mem, hpc,
    read_bulkStore hwf hin (Nat.le_of_succ_le hk), hlow]

/-! ## Out of range -/

/-- Settles O42: each of the four checks its whole range before it does anything (R46). -/
theorem outOfRangeAccessHaltsUndone : Obligations.OutOfRangeAccessHaltsUndone := by
  rintro s i ⟨n, hcount, hpos, hout⟩
  have hraise (t : State) :
      accessOr n s t = raise .outOfBoundsAccess (.dataAddress (max s.i.toNat Config.memSize)) s :=
    accessOr_outOfRange hpos (by simp only [Config.memSize]; omega)
  refine ⟨raise .outOfBoundsAccess (.dataAddress (max s.i.toNat Config.memSize)) s, ?_, rfl, rfl, rfl, rfl,
    raise_onlyChanges _ _ s⟩
  cases i <;> cases hcount
  case bcd | storeRegs | loadRegs | drw => exact congrArg Host.Outcome.next (hraise _)

end Sys2Proof.Machine
end

section
/-! PROOFS. Keypad, timers and random byte (47_keypad_timer_random.md, R180 to R186). -/

namespace Sys2Proof.Machine

/-! ## SKP and SKNP -/

theorem exec_skp (x : Nibble) (s : State) :
    exec (.skp x) s = .next (skipIf (keyDown s.keys (keyIndex (s.reg x))) s) := rfl

theorem exec_sknp (x : Nibble) (s : State) :
    exec (.sknp x) s = .next (skipIf (!keyDown s.keys (keyIndex (s.reg x))) s) := rfl

theorem toNat_keyIndex (b : Byte) : (keyIndex b).toNat = b.toNat % 16 := by
  rw [keyIndex, BitVec.extractLsb'_toNat, Nat.shiftRight_zero]

/-- Settles O28: both are skips, on the key whose number is the register modulo 16. -/
theorem keySkipsTestTheSelectedKey : Obligations.KeySkipsTestTheSelectedKey := by
  intro s x
  constructor
  · exact exec_skip_spec (exec_skp x s) (by rw [keyDown, toNat_keyIndex])
  · exact exec_skip_spec (exec_sknp x s) (by rw [keyDown, toNat_keyIndex, Bool.not_eq_true'])

/-! ## The key wait -/

theorem exec_ldVxK (x : Nibble) (s : State) : exec (.ldVxK x) s = .next (enterKeyWait x s) := rfl

theorem enterKeyWait_onlyChanges (x : Nibble) (s : State) :
    OnlyChanges s (enterKeyWait x s) {.run, .waitReg, .keyPrev, .status} := by
  intro p hp
  cases p with
  | run | waitReg | keyPrev | status => simp at hp
  | _ => rfl

/-- Settles O47: the instruction is the entry into the wait, which writes no register. -/
theorem keyWaitSuspendsTheCore : Obligations.KeyWaitSuspendsTheCore := fun s x =>
  ⟨_, exec_ldVxK x s, rfl, rfl, rfl, rfl, enterKeyWait_onlyChanges x s⟩

/-! ## Timers -/

theorem State.setDelay_onlyChanges (s : State) (b : Byte) : OnlyChanges s (s.setDelay b) {.delay} := by
  intro p hp
  cases p with
  | delay => simp at hp
  | _ => rfl

theorem State.setSound_onlyChanges (s : State) (b : Byte) : OnlyChanges s (s.setSound b) {.sound} := by
  intro p hp
  cases p with
  | sound => simp at hp
  | _ => rfl

theorem exec_ldStVx (x : Nibble) (s : State) : exec (.ldStVx x) s = .next (s.setSound (s.reg x)) := rfl

theorem toNat_st_repeat_tick (s : State) (n : Nat) : (Nat.repeat tick n s).st.toNat = s.st.toNat - n := by
  induction n with
  | zero => rfl
  | succ n ih =>
    calc (tick (Nat.repeat tick n s)).st.toNat
      _ = (Nat.repeat tick n s).st.toNat - 1 := by rw [tick_st, toNat_countDown]
      _ = s.st.toNat - (n + 1) := by rw [ih, Nat.sub_sub]

theorem soundActive_iff (s : State) : s.soundActive = true ↔ 0 < s.st.toNat := by
  rw [State.soundActive, bne_iff_ne, Nat.pos_iff_ne_zero, ne_eq, ne_eq, ← BitVec.toNat_inj]
  rfl

/-- Settles O49: each is one write of its timer; the sound timer is positive until as many ticks as its value. -/
theorem timersTakeTheRegister : Obligations.TimersTakeTheRegister := by
  intro s x
  constructor
  case left => exact ⟨_, exec_ldDtVx x s, State.setDelay_dt .., s.setDelay_onlyChanges _⟩
  case right =>
    refine ⟨_, exec_ldStVx x s, State.setSound_st .., s.setSound_onlyChanges _, fun n => ?_⟩
    rw [soundActive_iff, toNat_st_repeat_tick, State.setSound_st, Nat.sub_pos_iff_lt]

/-! ## RND -/

theorem exec_rnd (x : Nibble) (nn : Byte) (s : State) : exec (.rnd x nn) s = .next (s.setReg x (s.rand &&& nn)) := rfl

/-- Settles O50: one register write, of a value whose bits are the conjunctions. -/
theorem randomByteIsMasked : Obligations.RandomByteIsMasked := by
  intro s x nn rand
  refine ⟨_, exec_rnd x nn _, fun k => ?_, State.setReg_onlyChanges _ x _⟩
  rw [State.reg_setReg_self, BitVec.getLsbD_and]

end Sys2Proof.Machine
end

section
/-! PROOFS. The display (46_display.md, R170, R171). -/

namespace Sys2Proof.Machine

theorem State.setDisplay_onlyChanges (s : State) (d : Display) :
    OnlyChanges s (s.setDisplay d) ({.displayDirty} ∪ {p | ∃ y x, p = .cell y x}) := by
  intro p hp
  cases p with
  | displayDirty => simp at hp
  | cell y x => exact absurd (.inr ⟨y, x, rfl⟩) hp
  | _ => rfl

/-! ## CLS -/

theorem exec_cls (s : State) : exec .cls s = .next (s.setDisplay blankDisplay) := rfl

/-- Settles O44: the display becomes the blank one. -/
theorem clearScreenZeroesEveryCell : Obligations.ClearScreenZeroesEveryCell := fun s =>
  ⟨_, exec_cls s, cellAt_blankDisplay, rfl, s.setDisplay_onlyChanges _⟩

/-! ## DRW

`SpriteHits` is what the drawing loops do, `SpritePixelAt` what the rule says of the sprite's 1 bits. -/

/-- On the surface, landing is what the model's placing of a row or column computes. -/
theorem place_eq_some_iff {edge : DrawEdge} {size start k pos : Nat} (hpos : pos < size) :
    place edge size (start + k) = some pos ↔ LandsAt edge size start k pos := by
  unfold place LandsAt
  by_cases hk : start + k < size
  · cases edge <;> simp [hk, Nat.mod_eq_of_lt]
  · cases edge <;> simp [hk]
    omega

theorem spriteHits_iff (s : State) (x y n : Nibble) {row col : Nat} (hrow : row < 32) (hcol : col < 64) :
    SpriteHits s.drawEdge (startColumn (s.reg x)) (startRow (s.reg y)) (s.mem.loadBytes s.i.toNat n.toNat) row col ↔
      SpritePixelAt s x y n row col := by
  have hbyte (r : Nat) (b : Byte) : (s.mem.loadBytes s.i.toNat n.toNat)[r]? = some b ↔
      r < n.toNat ∧ s.mem.read (s.i.toNat + r) = b := by
    simp [List.getElem?_eq_some_iff]
  constructor
  · rintro ⟨r, b, hr, hplace, c, hc, hbit, hplace'⟩
    obtain ⟨hlt, rfl⟩ := (hbyte r b).1 hr
    exact ⟨r, c, hlt, hc, hbit, (place_eq_some_iff hrow).1 hplace, (place_eq_some_iff hcol).1 hplace'⟩
  · rintro ⟨r, c, hr, hc, hbit, hland, hland'⟩
    exact ⟨r, _, (hbyte r _).2 ⟨hr, rfl⟩, (place_eq_some_iff hrow).2 hland, c, hc, hbit,
      (place_eq_some_iff hcol).2 hland'⟩

theorem SpriteHits.row_lt {edge : DrawEdge} {x0 y0 : Nat} {rows : List Byte} {y x : Nat}
    (h : SpriteHits edge x0 y0 rows y x) : y < 32 := by
  obtain ⟨r, b, -, hplace, -⟩ := h
  exact place_lt (by decide) hplace

theorem SpriteHits.col_lt {edge : DrawEdge} {x0 y0 : Nat} {rows : List Byte} {y x : Nat}
    (h : SpriteHits edge x0 y0 rows y x) : x < 64 := by
  obtain ⟨r, b, -, -, c, -, -, hplace⟩ := h
  exact place_lt (by decide) hplace

/-- The sprite's cells as R171 has them, for the whole drawing. -/
theorem drawSprite_spec (s : State) (x y n : Nibble) :
    (∀ row < 32, ∀ col < 64,
      (SpritePixelAt s x y n row col → cellAt (drawSprite x y n s).1 row col = !cellAt s.disp row col) ∧
      (¬SpritePixelAt s x y n row col → cellAt (drawSprite x y n s).1 row col = cellAt s.disp row col)) ∧
    ((drawSprite x y n s).2 = true ↔
      ∃ row < 32, ∃ col < 64, SpritePixelAt s x y n row col ∧ cellAt s.disp row col = true) := by
  have hlen : (s.mem.loadBytes s.i.toNat n.toNat).length ≤ Config.displayH := by
    rw [Memory.length_loadBytes]
    exact Nat.le_trans (Nat.le_of_lt n.isLt) (by decide)
  obtain ⟨hcells, hlit⟩ := drawRows_spec (edge := s.drawEdge) (x0 := startColumn (s.reg x)) (y0 := startRow (s.reg y))
    (acc := (s.disp, false)) hlen
  constructor
  case left =>
    intro row hrow col hcol
    rw [← spriteHits_iff s x y n hrow hcol]
    exact hcells row col
  case right =>
    refine hlit.trans ⟨?_, ?_⟩
    · rintro (h | ⟨row, col, hhit, hcell⟩)
      · cases h
      · exact ⟨row, hhit.row_lt, col, hhit.col_lt, (spriteHits_iff s x y n hhit.row_lt hhit.col_lt).1 hhit, hcell⟩
    · rintro ⟨row, hrow, col, hcol, hpixel, hcell⟩
      exact .inr ⟨row, col, (spriteHits_iff s x y n hrow hcol).2 hpixel, hcell⟩

theorem exec_drw_inRange {x y n : Nibble} {s : State} (h : n.toNat = 0 ∨ s.i.toNat + n.toNat - 1 ≤ 0xFFF) :
    exec (.drw x y n) s =
      .next ((s.setDisplay (drawSprite x y n s).1).setFlag (flagByte (drawSprite x y n s).2)) :=
  congrArg Host.Outcome.next (accessOr_inRange (by simp only [Config.memSize]; omega))

/-- Settles O45: the drawing inverts the sprite's cells, and its collision is the flag, written last. -/
theorem drawInvertsExactlyTheSpriteCells : Obligations.DrawInvertsExactlyTheSpriteCells := by
  intro s x y n hin
  obtain ⟨hcells, hcollision⟩ := drawSprite_spec s x y n
  refine ⟨_, exec_drw_inRange hin, hcells, fun hlit => ?_, fun hunlit => ?_, rfl, ?_⟩
  · rw [← vf, State.reg_setFlag_vf, hcollision.2 hlit]; rfl
  · rw [← vf, State.reg_setFlag_vf, Bool.eq_false_iff.2 fun h => hunlit (hcollision.1 h)]; rfl
  · refine ((s.setDisplay_onlyChanges _).comp (State.setFlag_onlyChanges _ _)).mono ?_
    rintro p ((rfl | hcell) | rfl)
    · simp
    · exact .inr hcell
    · exact .inl (by simp [vf])

/-! ## Drawing twice -/

/-- Two surfaces with equal cells are equal. -/
theorem display_ext {d e : Display} (h : ∀ row < 32, ∀ col < 64, cellAt d row col = cellAt e row col) : d = e := by
  refine Vector.ext fun row hrow => BitVec.eq_of_getLsbD_eq fun col hcol => ?_
  have := h row hrow col hcol
  rwa [cellAt, cellAt, dif_pos hrow, dif_pos hrow] at this

/-- A change of the flag and of the display moves no sprite placed by other registers. -/
theorem spritePixelAt_congr {s t : State} {x y n : Nibble} (hx : x ≠ 0xF#4) (hy : y ≠ 0xF#4)
    (h : OnlyChanges s t ({.reg 0xF#4, .displayDirty} ∪ {p | ∃ row col, p = .cell row col})) (row col : Nat) :
    SpritePixelAt t x y n row col ↔ SpritePixelAt s x y n row col := by
  have hi : t.i = s.i := h .index (by simp)
  have hedge : t.drawEdge = s.drawEdge := h .drawEdge (by simp)
  have hregx : t.reg x = s.reg x := h (.reg x) (by simp [hx])
  have hregy : t.reg y = s.reg y := h (.reg y) (by simp [hy])
  have hmem (a : Nat) : t.mem.read a = s.mem.read a := h (.byte a) (by simp)
  simp only [SpritePixelAt, hi, hedge, hregx, hregy, hmem]

/-- Settles O46: the second drawing has the same sprite cells, so it inverts back what the first inverted, and finds lit
exactly those the first found unlit. -/
theorem drawingTwiceRestoresTheDisplay : Obligations.DrawingTwiceRestoresTheDisplay := by
  intro s x y n hx hy hin
  obtain ⟨t, hexec, hcells, -, -, -, hframe⟩ := drawInvertsExactlyTheSpriteCells s x y n hin
  have hi : t.i = s.i := hframe .index (by simp)
  obtain ⟨u, hexec', hcells', hlit, hunlit, -⟩ := drawInvertsExactlyTheSpriteCells t x y n (by rwa [hi])
  simp only [spritePixelAt_congr hx hy hframe] at hcells' hlit hunlit
  have hflip (row : Nat) (hrow : row < 32) (col : Nat) (hcol : col < 64) (hpixel : SpritePixelAt s x y n row col) :
      cellAt t.disp row col = true ↔ cellAt s.disp row col = false := by
    rw [(hcells row hrow col hcol).1 hpixel, Bool.not_eq_true']
  refine ⟨t, u, hexec, hexec', display_ext fun row hrow col hcol => ?_, ?_, fun hall => hunlit ?_⟩
  · by_cases hpixel : SpritePixelAt s x y n row col
    · rw [(hcells' row hrow col hcol).1 hpixel, (hcells row hrow col hcol).1 hpixel, Bool.not_not]
    · rw [(hcells' row hrow col hcol).2 hpixel, (hcells row hrow col hcol).2 hpixel]
  · rintro ⟨row, hrow, col, hcol, hpixel, hdark⟩
    exact hlit ⟨row, hrow, col, hcol, hpixel, (hflip row hrow col hcol hpixel).2 hdark⟩
  · rintro ⟨row, hrow, col, hcol, hpixel, hcell⟩
    exact hall ⟨row, hrow, col, hcol, hpixel, (hflip row hrow col hcol hpixel).1 hcell⟩

end Sys2Proof.Machine
end

section
/-! PROOFS. The instruction cycle in Running and in AwaitKey (40_instruction_cycle.md, R80 to R87). -/

namespace Sys2Proof.Machine

/-! ## The cycle by run state -/

/-- The state in which a cycle looks at the run state: inputs sampled, outputs cleared (R10, R80). -/
abbrev begun (keys : Word) (rand : Byte) (s : State) : State := beginStep (sampleInputs keys rand s)

theorem instructionCycle_of_running {s : State} (keys : Word) (rand : Byte) (h : s.run = .running) :
    instructionCycle keys rand s = runningStep (begun keys rand s) := by simp [instructionCycle, h]

theorem instructionCycle_of_awaitKey {s : State} (keys : Word) (rand : Byte) (h : s.run = .awaitKey) :
    instructionCycle keys rand s = .next (awaitStep (begun keys rand s)) := by simp [instructionCycle, h]

theorem fetch_begun (keys : Word) (rand : Byte) (s : State) : fetch (begun keys rand s) = fetch s := rfl

/-- The fetch fails (R203). -/
theorem instructionCycle_of_fetch_none {s : State} (keys : Word) (rand : Byte) (h : s.run = .running)
    (hfetch : fetch s = none) :
    instructionCycle keys rand s =
      .next (raise .outOfBoundsFetch (.fetchAddress s.pc) (begun keys rand s)) := by
  rw [instructionCycle_of_running keys rand h, runningStep, fetch_begun, hfetch]
  rfl

/-- The fetched word is unknown (R87). -/
theorem instructionCycle_of_unknown {s : State} {iw : Word} {e : DecodeError} (keys : Word) (rand : Byte)
    (h : s.run = .running) (hfetch : fetch s = some iw) (hdecode : decodeWord iw = .error e) :
    instructionCycle keys rand s = .next (unknownWord iw (advance (begun keys rand s))) := by
  rw [instructionCycle_of_running keys rand h, runningStep, fetch_begun, hfetch]
  simp only [executeWord, hdecode]

/-- The fetched word is an instruction, which runs after the advance of `pc` (R84, R86). -/
theorem instructionCycle_of_fetches {s : State} {i : Instr} (keys : Word) (rand : Byte) (h : s.run = .running)
    (hfetches : Fetches s i) :
    instructionCycle keys rand s = exec i (advance (begun keys rand s)) := by
  obtain ⟨iw, hfetch, hdecode⟩ := hfetches
  rw [instructionCycle_of_running keys rand h, runningStep, fetch_begun, hfetch]
  simp only [executeWord, hdecode]

theorem step_of_listed {s : State} {a : HostAction} {rest : List HostAction} (h : s.hostActions = a :: rest) :
    step s = perform a { s with hostActions := rest } := by
  rw [step, performNext, nextAction_listed h]

/-! ## Running -/

theorem fetches_of_decode {s : State} {i : Instr} (hpc : s.pc.toNat < 0xFFF)
    (h : decode [s.mem.read s.pc.toNat, s.mem.read (s.pc.toNat + 1)] = .ok (i, [])) : Fetches s i := by
  refine ⟨_, if_pos hpc, ?_⟩
  simp only [decode] at h
  split at h
  case h_1 j hj => cases h; exact hj
  case h_2 => cases h

/-- Settles O6: the cycle runs the fetched instruction, and a listed cycle is the step. -/
theorem stepRunsDecodedInstruction : Obligations.StepRunsDecodedInstruction := by
  intro s i keys rand hrun hpc hdecode
  have hcycle (l : List HostAction) :=
    instructionCycle_of_fetches (s := { s with hostActions := l }) keys rand hrun (fetches_of_decode hpc hdecode)
  exact ⟨hcycle s.hostActions, fun rest hlisted => (step_of_listed hlisted).trans (hcycle rest)⟩

/-- The byte at the lower address is the high one (R42). -/
theorem toNat_wordOf (hi lo : Byte) : (wordOf hi lo).toNat = 256 * hi.toNat + lo.toNat := by
  rw [wordOf, BitVec.toNat_append, ← Nat.shiftLeft_add_eq_or_of_lt lo.isLt, Nat.shiftLeft_eq, Nat.mul_comm]

/-- Settles O7: below 0xFFF the fetch succeeds with the two bytes' word; from there on the cycle is the halt entry. -/
theorem fetchIsBigEndianOrOutOfBounds : Obligations.FetchIsBigEndianOrOutOfBounds := by
  intro s keys rand hrun
  constructor
  case left => exact fun hpc => ⟨_, if_pos hpc, toNat_wordOf _ _⟩
  case right =>
    intro hpc
    have hframe := (beginStep_sampleInputs_onlyChanges keys rand s).comp
      (raise_onlyChanges .outOfBoundsFetch (.fetchAddress s.pc) _)
    exact ⟨_, instructionCycle_of_fetch_none keys rand hrun (fetch_none.2 hpc), rfl, rfl, rfl, rfl, rfl,
      hframe.mono (by simp [Set.insert_subset_iff])⟩

theorem unknownWord_onlyChanges (iw : Word) (s : State) : OnlyChanges s (unknownWord iw s) {.status, .report} := by
  intro p hp
  cases p with
  | status | report => simp at hp
  | _ => rfl

/-- Inside a cycle the address the instruction was fetched from is the old `pc` (R13, R84). -/
theorem pc0_advance (s : State) : (advance s).pc0 = s.pc := by
  rw [State.pc0, advance_pc, BitVec.add_sub_cancel]

theorem advance_onlyChanges (s : State) : OnlyChanges s (advance s) {.pc} := s.setPc_onlyChanges _

/-- What a cycle in Running does before an instruction writes `pc` and the ports. -/
theorem advance_begun_onlyChanges (keys : Word) (rand : Byte) (s : State) :
    OnlyChanges s (advance (begun keys rand s)) {.pc, .status, .displayDirty, .report, .keys, .rand} :=
  ((beginStep_sampleInputs_onlyChanges keys rand s).comp (advance_onlyChanges _)).mono (by simp)

/-- Settles O8: after the advance the unknown word is only reported. -/
theorem unknownWordIsSkippedAndReported : Obligations.UnknownWordIsSkippedAndReported := by
  intro s keys rand iw hrun hfetch hdecode
  have hframe := (advance_begun_onlyChanges keys rand s).comp (unknownWord_onlyChanges iw _)
  exact ⟨_, instructionCycle_of_unknown keys rand hrun hfetch hdecode, rfl, rfl,
    congrArg (Report.unknownWord iw) (pc0_advance _), rfl, hframe.mono (by simp [Set.insert_subset_iff])⟩

/-! ## AwaitKey -/

/-- The keys that went down since the last sample (R82, D14). -/
theorem getLsbD_wentDown {keys keyPrev : Word} {k : Nat} (hk : k < 16) :
    (keys &&& ~~~keyPrev).getLsbD k = (keys.getLsbD k && !keyPrev.getLsbD k) := by
  simp [hk]

theorem lowestKey_eq_some {down : Word} {k : Nibble} (hk : down.getLsbD k.toNat = true)
    (hlow : ∀ j < k.toNat, down.getLsbD j = false) : lowestKey down = some k := by
  cases h : lowestKey down with
  | none => rw [lowestKey_none.1 h k.toNat k.isLt] at hk; cases hk
  | some j =>
    obtain ⟨hj, hlow'⟩ := lowestKey_some h
    refine congrArg some (BitVec.eq_of_toNat_eq (Nat.le_antisymm ?_ ?_))
    · exact Nat.le_of_not_lt fun hlt => by rw [hlow' _ hlt] at hk; cases hk
    · exact Nat.le_of_not_lt fun hlt => by rw [hlow _ hlt] at hj; cases hj

theorem awaitStep_of_key {s : State} {k : Nibble} (h : lowestKey (s.keys &&& ~~~s.keyPrev) = some k) :
    awaitStep s =
      { s.setReg s.waitReg (k.setWidth 8) with run := .running, status := .ok, keyPrev := s.keys } := by
  simp only [awaitStep, h]

theorem awaitStep_of_no_key {s : State} (h : lowestKey (s.keys &&& ~~~s.keyPrev) = none) :
    awaitStep s = { s with status := .awaitingKey, keyPrev := s.keys } := by
  simp only [awaitStep, h]

theorem awaitStep_onlyChanges_of_key {s : State} {k : Nibble} (h : lowestKey (s.keys &&& ~~~s.keyPrev) = some k) :
    OnlyChanges s (awaitStep s) {.reg s.waitReg, .run, .status, .keyPrev} := by
  rw [awaitStep_of_key h]
  refine ((s.setReg_onlyChanges s.waitReg (k.setWidth 8)).mono (by simp)).trans fun p hp => ?_
  cases p with
  | run | status | keyPrev => simp at hp
  | _ => rfl

theorem awaitStep_onlyChanges_of_no_key {s : State} (h : lowestKey (s.keys &&& ~~~s.keyPrev) = none) :
    OnlyChanges s (awaitStep s) {.status, .keyPrev} := by
  rw [awaitStep_of_no_key h]
  intro p hp
  cases p with
  | status | keyPrev => simp at hp
  | _ => rfl

/-- Settles O10: the lowest key gone down ends the wait in the waiting register; with none only the sample is kept. -/
theorem awaitStepStoresLowestPressedKey : Obligations.AwaitStepStoresLowestPressedKey := by
  intro s keys rand hrun
  have hports := beginStep_sampleInputs_onlyChanges keys rand s
  constructor
  case left =>
    intro k hdown hup hlow
    have hkey : lowestKey (keys &&& ~~~s.keyPrev) = some k := by
      refine lowestKey_eq_some (by rw [getLsbD_wentDown k.isLt, hdown, hup]; rfl) fun j hj => ?_
      rw [getLsbD_wentDown (Nat.lt_trans hj k.isLt)]
      cases hd : keys.getLsbD j with
      | false => rfl
      | true => rw [hlow j hj hd]; rfl
    have hframe := hports.comp (awaitStep_onlyChanges_of_key (s := begun keys rand s) hkey)
    refine ⟨_, instructionCycle_of_awaitKey keys rand hrun, ?_, ?_, ?_, ?_,
      hframe.mono (by simp)⟩ <;> rw [awaitStep_of_key (s := begun keys rand s) hkey]
    · refine (congrArg BitVec.toNat (State.reg_setReg_self (begun keys rand s) s.waitReg _)).trans ?_
      exact BitVec.toNat_setWidth_of_le (by decide)
    all_goals rfl
  case right =>
    intro hall
    have hnone : lowestKey (keys &&& ~~~s.keyPrev) = none := by
      refine lowestKey_none.2 fun j hj => ?_
      rw [getLsbD_wentDown hj]
      cases hd : keys.getLsbD j with
      | false => rfl
      | true => rw [hall j hj hd]; rfl
    have hframe := hports.comp (awaitStep_onlyChanges_of_no_key (s := begun keys rand s) hnone)
    refine ⟨_, instructionCycle_of_awaitKey keys rand hrun, ?_, ?_, hframe.mono (by simp)⟩
    · rw [awaitStep_of_no_key (s := begun keys rand s) hnone]
    · rw [awaitStep_of_no_key (s := begun keys rand s) hnone]; rfl

end Sys2Proof.Machine
end

section
/-! PROOFS. Whole-machine rules (R22 to R33, R57, R90): which parts of the state an instruction can write, once for all
instructions, and what follows for each part. -/

namespace Sys2Proof.Machine

/-! ## What an instruction can write -/

/-- What the halt entry writes, with the report of a data access out of range (R206, R208). -/
def haltParts : Set Part := {.run, .haltCause, .status, .report}

/-- The index, for a bulk transfer with `auto_increment_index` (R154, R155). -/
def incrementParts (s : State) : Set Part := {p | p = .index ∧ s.quirks.autoIncrementIndex = true}

/-- The parts an instruction can write in `s`: its destinations, and the halt where it can fail. -/
def writes (s : State) (i : Instr) : Set Part :=
  match i with
  | .halt => haltParts
  | .cls => {.displayDirty} ∪ {p | ∃ y x, p = .cell y x}
  | .ret => haltParts ∪ {.pc, .depth}
  | .jp _ => haltParts ∪ {.pc}
  | .call _ => haltParts ∪ {.stackEntry s.sp.val, .depth, .pc}
  | .seImm _ _ | .sneImm _ _ | .seReg _ _ | .sneReg _ _ | .jpV0 _ | .skp _ | .sknp _ => {.pc}
  | .ldImm x _ | .addImm x _ | .ldReg x _ | .orReg x _ | .andReg x _ | .xorReg x _ | .rnd x _ | .ldVxDt x => {.reg x}
  | .addReg x _ | .subReg x _ | .shrReg x _ | .shlReg x _ => {.reg x, .reg vf}
  | .subnReg _ y => {.reg y, .reg vf}
  | .ldI _ | .ldF _ => {.index}
  | .addI x => {.index} ∪ {p | p = .reg vf ∧ 0xFFF < s.i.toNat + (s.reg x).toNat}
  | .drw _ _ _ => haltParts ∪ ({.reg vf, .displayDirty} ∪ {p | ∃ y x, p = .cell y x})
  | .ldDtVx _ => {.delay}
  | .ldStVx _ => {.sound}
  | .ldVxK _ => {.run, .waitReg, .keyPrev, .status}
  | .bcd _ => haltParts ∪ {p | ∃ a, p = .byte a}
  | .storeRegs _ => haltParts ∪ ({p | ∃ a, p = .byte a} ∪ incrementParts s)
  | .loadRegs x => haltParts ∪ ({p | ∃ k : Nibble, k.toNat ≤ x.toNat ∧ p = .reg k} ∪ incrementParts s)

theorem haltEntry_onlyChanges_haltParts (c : Status) (s : State) : OnlyChanges s (haltEntry c s) haltParts :=
  (haltEntry_onlyChanges c s).mono (by simp [haltParts, Set.insert_subset_iff])

theorem accessOr_onlyChanges {count : Nat} {s t : State} {may : Set Part} (h : OnlyChanges s t may) :
    OnlyChanges s (accessOr count s t) (haltParts ∪ may) := by
  obtain ⟨-, e⟩ | ⟨-, e⟩ := accessOr_cases count s t
  · rw [e]; exact h.mono Set.subset_union_right
  · rw [e]; exact (raise_onlyChanges _ _ s).mono Set.subset_union_left

/-- The frame of every instruction. -/
theorem exec_onlyChanges {i : Instr} {s t : State} (h : exec i s = .next t) : OnlyChanges s t (writes s i) := by
  cases i
  case halt => cases h; exact haltEntry_onlyChanges_haltParts .halt s
  case cls => cases h; exact s.setDisplay_onlyChanges _
  case ret =>
    obtain hempty | hlive := Nat.eq_zero_or_pos s.sp.val
    · cases (exec_ret_of_empty hempty).symm.trans h
      exact (haltEntry_onlyChanges_haltParts _ s).mono Set.subset_union_left
    · obtain ⟨u, hu, -, -, hframe⟩ := (retPopsStackOrUnderflows s).1 hlive
      cases hu.symm.trans h
      exact hframe.mono Set.subset_union_right
  case jp nnn =>
    by_cases hself : nnn.toNat + 2 = s.pc.toNat
    · cases (exec_jp_of_eq hself).symm.trans h
      exact ((s.setPc_onlyChanges _).comp (haltEntry_onlyChanges_haltParts _ _)).mono (Set.union_comm _ _).subset
    · cases (exec_jp_of_ne hself).symm.trans h
      exact (s.setPc_onlyChanges _).mono Set.subset_union_right
  case call nnn =>
    obtain hroom | hfull := Nat.lt_or_eq_of_le (Nat.le_of_lt_succ s.sp.isLt)
    · obtain ⟨u, hu, -, -, -, hframe⟩ := (callPushesReturnAddressOrOverflows s nnn).1 hroom
      cases hu.symm.trans h
      exact hframe.mono Set.subset_union_right
    · cases (exec_call_of_full nnn hfull).symm.trans h
      exact (haltEntry_onlyChanges_haltParts _ s).mono Set.subset_union_left
  case seImm | sneImm | seReg | sneReg | skp | sknp => cases h; exact skipIf_onlyChanges _ s
  case jpV0 => cases h; exact s.setPc_onlyChanges _
  case ldImm | addImm | ldReg | orReg | andReg | xorReg | rnd | ldVxDt => cases h; exact s.setReg_onlyChanges _ _
  case addReg => cases h; exact s.setFlag_setReg_onlyChanges _ _ _
  case subReg x y => cases h; exact subtractInto_onlyChanges x y s
  case subnReg x y => cases h; exact subtractInto_onlyChanges y x s
  case shrReg x y => cases h; exact shiftInto_onlyChanges x y lowBitFlag (· >>> 1) s
  case shlReg x y => cases h; exact shiftInto_onlyChanges x y highBitFlag (· <<< 1) s
  case ldI | ldF => cases h; exact s.setIndex_onlyChanges _
  case addI x =>
    obtain ⟨hfits, hwraps⟩ := addIndexWrapsAndFlagsAboveFFF s x
    obtain hle | hgt := Nat.lt_or_ge 0xFFF (s.i.toNat + (s.reg x).toNat) |>.symm
    · obtain ⟨u, hu, -, hframe⟩ := hfits hle
      cases hu.symm.trans h
      exact hframe.mono Set.subset_union_left
    · obtain ⟨u, hu, -, -, hframe⟩ := hwraps hgt
      cases hu.symm.trans h
      exact hframe.mono (Set.insert_subset_iff.2 ⟨.inl rfl, Set.singleton_subset_iff.2 (.inr ⟨rfl, hgt⟩)⟩)
  case drw x y n =>
    cases h
    refine accessOr_onlyChanges (((s.setDisplay_onlyChanges _).comp (State.setFlag_onlyChanges _ _)).mono ?_)
    rintro p ((rfl | hcell) | rfl)
    · simp
    · exact .inr hcell
    · simp
  case ldDtVx => cases h; exact s.setDelay_onlyChanges _
  case ldStVx => cases h; exact s.setSound_onlyChanges _
  case ldVxK x => cases h; exact enterKeyWait_onlyChanges x s
  case bcd x =>
    cases h
    refine accessOr_onlyChanges ((storeBytes_onlyChanges s _ _).mono ?_)
    rintro p ⟨k, -, rfl⟩
    exact ⟨_, rfl⟩
  case storeRegs x =>
    cases h
    refine accessOr_onlyChanges (((storeBytes_onlyChanges s _ _).mono ?_).comp (autoIncrement_onlyChanges _ x))
    rintro p ⟨k, -, rfl⟩
    exact ⟨_, rfl⟩
  case loadRegs x =>
    cases h
    have hlen : (s.mem.loadBytes s.i.toNat (x.toNat + 1)).length = x.toNat + 1 := Memory.length_loadBytes ..
    have hquirks : (s.setRegsFrom 0 (s.mem.loadBytes s.i.toNat (x.toNat + 1))).quirks = s.quirks :=
      setRegsFrom_onlyChanges s _ (by have := x.isLt; omega) .quirks (by simp)
    refine accessOr_onlyChanges (((setRegsFrom_onlyChanges s _ (by have := x.isLt; omega)).mono ?_).comp
      ((autoIncrement_onlyChanges _ x).mono (by rw [hquirks]; rfl)))
    rintro p ⟨k, hk, rfl⟩
    exact ⟨k, by omega, rfl⟩

/-- A part that changed is one the instruction can write. -/
theorem mem_writes_of_changed {i : Instr} {s t : State} (h : exec i s = .next t) {p : Part} (hp : ¬p.Same s t) :
    p ∈ writes s i := by_contra fun hnot => hp (exec_onlyChanges h p hnot)

/-! ## Who writes a part

Each lemma reads one part off the table `writes`. -/

@[simp] theorem mem_haltParts_iff {p : Part} :
    p ∈ haltParts ↔ p = .run ∨ p = .haltCause ∨ p = .status ∨ p = .report := Iff.rfl

@[simp] theorem mem_incrementParts_iff {s : State} {p : Part} :
    p ∈ incrementParts s ↔ p = .index ∧ s.quirks.autoIncrementIndex = true := Iff.rfl

section
variable {s : State} {i : Instr}

theorem stack_mem_writes {p : Part} (hp : p = .depth ∨ ∃ k, p = .stackEntry k) (h : p ∈ writes s i) :
    i = .ret ∨ ∃ nnn, i = .call nnn := by
  obtain rfl | ⟨k, rfl⟩ := hp <;> cases i <;> simp [writes] at h ⊢

theorem display_mem_writes {p : Part} (hp : p = .displayDirty ∨ ∃ y x, p = .cell y x) (h : p ∈ writes s i) :
    i = .cls ∨ ∃ x y n, i = .drw x y n := by
  obtain rfl | ⟨y, x, rfl⟩ := hp <;> cases i <;> simp [writes] at h ⊢

theorem index_mem_writes (h : .index ∈ writes s i) :
    (∃ nnn, i = .ldI nnn) ∨ (∃ x, i = .addI x ∨ i = .ldF x) ∨
      (s.quirks.autoIncrementIndex = true ∧ ∃ x, i = .storeRegs x ∨ i = .loadRegs x) := by
  cases i <;> simp [writes] at h ⊢ <;> exact h

theorem delay_mem_writes (h : .delay ∈ writes s i) : ∃ x, i = .ldDtVx x := by
  cases i <;> simp [writes] at h ⊢

theorem sound_mem_writes (h : .sound ∈ writes s i) : ∃ x, i = .ldStVx x := by
  cases i <;> simp [writes] at h ⊢

theorem latch_mem_writes {p : Part} (hp : p = .keyPrev ∨ p = .waitReg) (h : p ∈ writes s i) : ∃ x, i = .ldVxK x := by
  obtain rfl | rfl := hp <;> cases i <;> simp [writes] at h ⊢

theorem flag_mem_writes (h : .reg vf ∈ writes s i) :
    (∃ x y, i = .addReg x y ∨ i = .subReg x y ∨ i = .subnReg x y ∨ i = .shrReg x y ∨ i = .shlReg x y) ∨
    (∃ x y n, i = .drw x y n) ∨
    (∃ x, i = .addI x ∧ 0xFFF < s.i.toNat + (s.reg x).toNat) ∨
    (∃ nn, i = .ldImm vf nn ∨ i = .addImm vf nn ∨ i = .rnd vf nn) ∨
    (∃ y, i = .ldReg vf y ∨ i = .orReg vf y ∨ i = .andReg vf y ∨ i = .xorReg vf y) ∨
    i = .ldVxDt vf ∨ i = .loadRegs vf := by
  cases i <;> simp [writes] at h ⊢
  case addI => exact h
  case loadRegs x => exact BitVec.eq_of_toNat_eq (Nat.le_antisymm (Nat.le_of_lt_succ x.isLt) h)
  all_goals exact h.symm

/-- The configuration, the inputs and the model's own fields are in no row of the table. -/
theorem config_notMem_writes {p : Part}
    (hp : p ∈ ({.quirks, .drawEdge, .keys, .rand, .hostActions, .actionIndex} : Set Part)) : p ∉ writes s i := by
  simp only [Set.mem_insert_iff, Set.mem_singleton_iff] at hp
  obtain rfl | rfl | rfl | rfl | rfl | rfl := hp <;> cases i <;> simp [writes]

end

/-! ## The rules -/

/-- Settles O51: no stack entry and not the depth is a part another instruction can write. -/
theorem onlyCallAndRetTouchTheStack : Obligations.OnlyCallAndRetTouchTheStack := by
  intro i s t h hcall hret
  have hkeeps {p : Part} (hp : p = .depth ∨ ∃ k, p = .stackEntry k) : p.Same s t := exec_onlyChanges h p fun hmem => by
    obtain rfl | ⟨nnn, rfl⟩ := stack_mem_writes hp hmem
    · exact hret rfl
    · exact hcall nnn rfl
  have hentry (k : Nat) : t.stack[k]? = s.stack[k]? := hkeeps (.inr ⟨k, rfl⟩)
  exact ⟨Vector.ext fun k hk => by simpa [hk] using hentry k, hkeeps (.inl rfl)⟩

theorem accessOr_mem {count : Nat} {s t : State} (h : t.mem = s.mem) : (accessOr count s t).mem = s.mem := by
  obtain ⟨-, e⟩ | ⟨-, e⟩ := accessOr_cases count s t
  · rw [e, h]
  · rw [e]; rfl

theorem State.setRegsFrom_mem (s : State) (k : Nat) (l : List Byte) : (s.setRegsFrom k l).mem = s.mem := by
  obtain ⟨v', hframe⟩ := s.setRegsFrom_frame k l
  rw [hframe]

/-- Settles O52. Memory is equal as a list, which the frame of its bytes does not say, so each instruction is looked at. -/
theorem onlyBcdAndBulkStoreWriteMemory : Obligations.OnlyBcdAndBulkStoreWriteMemory := by
  intro i s t h hbcd hstore
  cases i <;> cases h
  case bcd x => exact absurd rfl (hbcd x)
  case storeRegs x => exact absurd rfl (hstore x)
  case drw => exact accessOr_mem rfl
  case loadRegs => exact accessOr_mem (by rw [State.autoIncrement_mem, State.setRegsFrom_mem])
  case shrReg | shlReg => exact State.copyForShift_mem ..
  case ret =>
    split
    case h_1 => rfl
    case h_2 hpop => obtain ⟨-, -, -, rfl⟩ := popReturn_some hpop; rfl
  case call =>
    split
    case h_1 => rfl
    case h_2 hpush => obtain ⟨-, rfl⟩ := pushReturn_some hpush; rfl
  case jp => split <;> rfl
  case addI x =>
    change State.mem (if 0xFFF < s.i.toNat + (s.reg x).toNat then _ else _) = s.mem
    split <;> rfl
  all_goals rfl

/-- Settles O53: no cell and not the dirty bit is a part another instruction can write. -/
theorem onlyClsAndDrwTouchTheDisplay : Obligations.OnlyClsAndDrwTouchTheDisplay := by
  intro i s t h hcls hdrw
  have hkeeps {p : Part} (hp : p = .displayDirty ∨ ∃ y x, p = .cell y x) : p.Same s t :=
    exec_onlyChanges h p fun hmem => by
      obtain rfl | ⟨x, y, n, rfl⟩ := display_mem_writes hp hmem
      · exact hcls rfl
      · exact hdrw x y n rfl
  exact ⟨display_ext fun y _ x _ => hkeeps (.inr ⟨y, x, rfl⟩), hkeeps (.inl rfl)⟩

/-- Settles O54: what changed is what can be written, and these are the rows of the table with register 0xF. -/
theorem flagChangesOnlyByItsWriters : Obligations.FlagChangesOnlyByItsWriters := fun _ _ _ h hchanged =>
  flag_mem_writes (mem_writes_of_changed (p := .reg vf) h hchanged)

/-- Settles O55: what changed is what can be written, and the table has each of these parts in the named rows only. -/
theorem indexTimersAndLatchesChangeOnlyByTheirWriters :
    Obligations.IndexTimersAndLatchesChangeOnlyByTheirWriters := by
  intro i s t h
  refine ⟨fun hi => index_mem_writes (mem_writes_of_changed h hi),
    fun hdt => delay_mem_writes (mem_writes_of_changed h hdt),
    fun hst => sound_mem_writes (mem_writes_of_changed h hst), ?_⟩
  rintro (hprev | hreg)
  · exact latch_mem_writes (.inl rfl) (mem_writes_of_changed h hprev)
  · exact latch_mem_writes (.inr rfl) (mem_writes_of_changed h hreg)

/-- Settles O56: none of these is a part an instruction can write. -/
theorem configurationAndInputsAreNeverWritten : Obligations.ConfigurationAndInputsAreNeverWritten := by
  intro i s t h
  have hkeeps {p : Part} (hp : p ∈ ({.quirks, .drawEdge, .keys, .rand, .hostActions, .actionIndex} : Set Part)) :
      p.Same s t := exec_onlyChanges h p (config_notMem_writes hp)
  exact ⟨hkeeps (p := .quirks) (by simp), hkeeps (p := .drawEdge) (by simp), hkeeps (p := .keys) (by simp),
    hkeeps (p := .rand) (by simp), hkeeps (p := .hostActions) (by simp), hkeeps (p := .actionIndex) (by simp)⟩

end Sys2Proof.Machine
end

section
/-! PROOFS. The inputs of a step (R32, R186): an instruction that does not read an input does the same with another one. -/

namespace Sys2Proof.Machine

section
variable (keys : Word) (rand : Byte) (s : State)

theorem accessOr_sampleInputs (count : Nat) (t : State) :
    accessOr count (sampleInputs keys rand s) (sampleInputs keys rand t) = sampleInputs keys rand (accessOr count s t) := by
  simp only [accessOr, sampleInputs_i]
  split <;> rfl

theorem autoIncrement_sampleInputs (x : Nibble) :
    (sampleInputs keys rand s).autoIncrement x = sampleInputs keys rand (s.autoIncrement x) := by
  rw [State.autoIncrement, State.autoIncrement, apply_ite (sampleInputs keys rand)]
  rfl

theorem copyForShift_sampleInputs (x y : Nibble) :
    (sampleInputs keys rand s).copyForShift x y = sampleInputs keys rand (s.copyForShift x y) := by
  rw [State.copyForShift, State.copyForShift, apply_ite (sampleInputs keys rand)]
  rfl

theorem setRegsFrom_sampleInputs (k : Nat) (l : List Byte) :
    (sampleInputs keys rand s).setRegsFrom k l = sampleInputs keys rand (s.setRegsFrom k l) := by
  induction l generalizing s k with
  | nil => rfl
  | cons b l ih => exact ih (s.setReg (BitVec.ofNat 4 k) b) (k + 1)

theorem shiftInto_sampleInputs (x y : Nibble) (flag shift : Byte → Byte) :
    shiftInto x y flag shift (sampleInputs keys rand s) = sampleInputs keys rand (shiftInto x y flag shift s) := by
  simp only [shiftInto, copyForShift_sampleInputs]
  rfl

theorem popReturn_sampleInputs :
    popReturn (sampleInputs keys rand s) = (popReturn s).map fun p => (p.1, sampleInputs keys rand p.2) := by
  rw [popReturn, popReturn, apply_dite (Option.map _)]
  rfl

theorem pushReturn_sampleInputs (w : Word) :
    pushReturn w (sampleInputs keys rand s) = (pushReturn w s).map (sampleInputs keys rand) := by
  rw [pushReturn, pushReturn, apply_dite (Option.map _)]
  rfl

/-- With other inputs an instruction does the same, when it does not read the inputs that differ. -/
theorem exec_sampleInputs {i : Instr} {t : State} (h : exec i s = .next t)
    (hrand : rand = s.rand ∨ ∀ x nn, i ≠ .rnd x nn)
    (hkeys : keys = s.keys ∨ (∀ x, i ≠ .skp x) ∧ (∀ x, i ≠ .sknp x) ∧ ∀ x, i ≠ .ldVxK x) :
    exec i (sampleInputs keys rand s) = .next (sampleInputs keys rand t) := by
  cases i <;> cases h
  case ret =>
    simp only [exec, execRet, popReturn_sampleInputs]
    cases popReturn s <;> rfl
  case call =>
    simp only [exec, execCall, sampleInputs_pc, pushReturn_sampleInputs]
    cases pushReturn s.pc s <;> rfl
  case jp | addI =>
    rw [apply_ite (sampleInputs keys rand)]
    rfl
  case bcd | drw =>
    rw [← accessOr_sampleInputs]
    rfl
  case storeRegs x =>
    rw [← accessOr_sampleInputs, ← autoIncrement_sampleInputs]
    rfl
  case loadRegs x =>
    rw [← accessOr_sampleInputs, ← autoIncrement_sampleInputs, ← setRegsFrom_sampleInputs]
    rfl
  case shrReg x y => exact congrArg Host.Outcome.next (shiftInto_sampleInputs keys rand s x y lowBitFlag (· >>> 1))
  case shlReg x y => exact congrArg Host.Outcome.next (shiftInto_sampleInputs keys rand s x y highBitFlag (· <<< 1))
  case rnd x nn =>
    obtain rfl | hrand := hrand
    · rfl
    · exact absurd rfl (hrand x nn)
  case skp x =>
    obtain rfl | ⟨hskp, -, -⟩ := hkeys
    · rfl
    · exact absurd rfl (hskp x)
  case sknp x =>
    obtain rfl | ⟨-, hsknp, -⟩ := hkeys
    · rfl
    · exact absurd rfl (hsknp x)
  case ldVxK x =>
    obtain rfl | ⟨-, -, hwait⟩ := hkeys
    · rfl
    · exact absurd rfl (hwait x)
  all_goals rfl

end

/-- Settles O57: to change one input is to sample it anew and the other as it was, which no instruction changes. -/
theorem inputsMatterOnlyToTheirReaders : Obligations.InputsMatterOnlyToTheirReaders := by
  intro i s keys rand
  obtain ⟨t, h⟩ := exec_next i s
  obtain ⟨-, -, hkeys, hrand, -, -⟩ := configurationAndInputsAreNeverWritten i s t h
  refine ⟨t, h, fun hrnd => ?_, fun hskp hsknp hwait => ?_⟩
  · have ht : sampleInputs s.keys rand t = { t with rand := rand } := by rw [← hkeys]; rfl
    exact (exec_sampleInputs s.keys rand s h (.inr hrnd) (.inl rfl)).trans (congrArg _ ht)
  · have ht : sampleInputs keys s.rand t = { t with keys := keys } := by rw [← hrand]; rfl
    exact (exec_sampleInputs keys s.rand s h (.inl rfl) (.inr ⟨hskp, hsknp, hwait⟩)).trans (congrArg _ ht)

end Sys2Proof.Machine
end

section
/-! PROOFS. The run-state machine of a step (R89) and the precise fault (R208). -/

namespace Sys2Proof.Machine

/-! ## What a status means (R89) -/

/-- The run state a step in Running leads to, by the status it answers. -/
def Status.leadsTo (c : Status) : RunState :=
  if c.isHaltCause then .halted else if c = .awaitingKey then .awaitKey else .running

/-- From `s` to `t` a step in Running answers `c`: the status, the run state it leads to, and `c` as the halt cause if it
is one. -/
structure Answers (s t : State) (c : Status) : Prop where
  status_eq : t.status = c
  run_eq : t.run = c.leadsTo
  cause_eq : t.haltCause = if c.isHaltCause then c else s.haltCause

theorem answers_haltEntry {s u : State} {c : Status} (hc : c.isHaltCause = true) : Answers s (haltEntry c u) c :=
  ⟨rfl, (if_pos hc).symm, (if_pos hc).symm⟩

theorem answers_raise {s u : State} {c : Status} (info : Report) (hc : c.isHaltCause = true) :
    Answers s (raise c info u) c :=
  ⟨rfl, (if_pos hc).symm, (if_pos hc).symm⟩

/-- An effect that leaves run state, cause and status alone is answered OK. -/
theorem answers_ok_of_onlyChanges {s t : State} {may : Set Part} (hrun : s.run = .running) (hstatus : s.status = .ok)
    (h : OnlyChanges s t may) (hmay : Part.run ∉ may ∧ Part.haltCause ∉ may ∧ Part.status ∉ may) : Answers s t .ok := by
  obtain ⟨hmrun, hmcause, hmstatus⟩ := hmay
  exact ⟨Eq.trans (h .status hmstatus) hstatus, Eq.trans (h .run hmrun) hrun, h .haltCause hmcause⟩

/-! ## The event of an instruction -/

/-- The status an instruction answers in `s`. -/
def eventOf (s : State) (i : Instr) : Status :=
  match i with
  | .halt => .halt
  | .ret => if s.sp.val = 0 then .stackUnderflow else .ok
  | .jp nnn => if nnn.toNat + 2 = s.pc.toNat then .infiniteLoop else .ok
  | .call _ => if s.sp.val = 16 then .stackOverflow else .ok
  | .ldVxK _ => .awaitingKey
  | i =>
    match dataCount i with
    | some n => if 0 < n ∧ 0xFFF < s.i.toNat + n - 1 then .outOfBoundsAccess else .ok
    | none => .ok

section
variable {s : State} {i : Instr}

theorem eventOf_eq_halt_iff : eventOf s i = .halt ↔ i = .halt := by
  cases i <;> simp [eventOf, dataCount, ite_eq_iff]

theorem eventOf_eq_awaitingKey_iff : eventOf s i = .awaitingKey ↔ ∃ x, i = .ldVxK x := by
  cases i <;> simp [eventOf, dataCount, ite_eq_iff]

theorem eventOf_eq_infiniteLoop_iff :
    eventOf s i = .infiniteLoop ↔ ∃ nnn : Addr, i = .jp nnn ∧ nnn.toNat + 2 = s.pc.toNat := by
  cases i <;> simp [eventOf, dataCount, ite_eq_iff]

theorem eventOf_eq_stackOverflow_iff : eventOf s i = .stackOverflow ↔ s.sp.val = 16 ∧ ∃ nnn, i = .call nnn := by
  cases i <;> simp [eventOf, dataCount, ite_eq_iff]

theorem eventOf_eq_stackUnderflow_iff : eventOf s i = .stackUnderflow ↔ s.sp.val = 0 ∧ i = .ret := by
  cases i <;> simp [eventOf, dataCount, ite_eq_iff]

theorem eventOf_eq_outOfBoundsAccess_iff : eventOf s i = .outOfBoundsAccess ↔ OutOfRange s i := by
  cases i <;> simp [eventOf, dataCount, ite_eq_iff, OutOfRange]
  case drw | bcd => omega

/-- The statuses of a failed fetch, of an unknown word and of the host's errors are no instruction's. -/
theorem eventOf_ne {c : Status} (hc : c ∈ [.outOfBoundsFetch, .unknownOpcode, .haltedError, .loadError]) :
    eventOf s i ≠ c := by
  simp only [List.mem_cons, List.not_mem_nil, or_false] at hc
  obtain rfl | rfl | rfl | rfl := hc <;> cases i <;> simp [eventOf, dataCount, ite_eq_iff]

end

theorem answers_accessOr {count : Nat} {s u : State} (hu : Answers s u .ok) :
    Answers s (accessOr count s u)
      (if 0 < count ∧ 0xFFF < s.i.toNat + count - 1 then .outOfBoundsAccess else .ok) := by
  have hsize : Config.memSize = 0x1000 := rfl
  obtain ⟨hin, e⟩ | ⟨hout, e⟩ := accessOr_cases count s u
  · rw [e, if_neg (by omega)]; exact hu
  · rw [e, if_pos (by omega)]; exact answers_raise _ rfl

/-- Every instruction answers its event, when the step began with OK in Running. -/
theorem exec_answers {i : Instr} {s t : State} (hrun : s.run = .running) (hstatus : s.status = .ok)
    (h : exec i s = .next t) : Answers s t (eventOf s i) := by
  cases i
  case halt => cases h; exact answers_haltEntry rfl
  case ret =>
    simp only [eventOf]
    split
    case isTrue hempty => cases (exec_ret_of_empty hempty).symm.trans h; exact answers_haltEntry rfl
    case isFalse hlive =>
      obtain ⟨u, hu, -, -, hframe⟩ := (retPopsStackOrUnderflows s).1 (Nat.pos_of_ne_zero hlive)
      cases hu.symm.trans h
      exact answers_ok_of_onlyChanges hrun hstatus hframe (by simp)
  case jp nnn =>
    simp only [eventOf]
    split
    case isTrue hself => cases (exec_jp_of_eq hself).symm.trans h; exact answers_haltEntry rfl
    case isFalse hother =>
      cases (exec_jp_of_ne hother).symm.trans h
      exact answers_ok_of_onlyChanges hrun hstatus (s.setPc_onlyChanges _) (by simp)
  case call nnn =>
    simp only [eventOf]
    split
    case isTrue hfull => cases (exec_call_of_full nnn hfull).symm.trans h; exact answers_haltEntry rfl
    case isFalse hroom =>
      obtain ⟨u, hu, -, -, -, hframe⟩ :=
        (callPushesReturnAddressOrOverflows s nnn).1 (Nat.lt_of_le_of_ne (Nat.le_of_lt_succ s.sp.isLt) hroom)
      cases hu.symm.trans h
      exact answers_ok_of_onlyChanges hrun hstatus hframe (by simp)
  case ldVxK x => cases h; exact ⟨rfl, rfl, rfl⟩
  case drw | bcd => cases h; exact answers_accessOr ⟨hstatus, hrun, rfl⟩
  case storeRegs x =>
    cases h
    exact answers_accessOr ⟨(State.autoIncrement_status ..).trans hstatus, (State.autoIncrement_run ..).trans hrun,
      State.autoIncrement_haltCause ..⟩
  case loadRegs x =>
    cases h
    obtain ⟨v', hframe⟩ := s.setRegsFrom_frame 0 (s.mem.loadBytes s.i.toNat (x.toNat + 1))
    rw [hframe]
    exact answers_accessOr ⟨(State.autoIncrement_status ..).trans hstatus, (State.autoIncrement_run ..).trans hrun,
      State.autoIncrement_haltCause ..⟩
  all_goals exact answers_ok_of_onlyChanges hrun hstatus (exec_onlyChanges h) (by simp [writes])

/-! ## The step in Running -/

theorem Fetches.unique {s : State} {i j : Instr} (hi : Fetches s i) (hj : Fetches s j) : j = i := by
  obtain ⟨iw, hfetch, hdecode⟩ := hi
  obtain ⟨iw', hfetch', hdecode'⟩ := hj
  cases hfetch.symm.trans hfetch'
  cases hdecode.symm.trans hdecode'
  rfl

theorem fetches_iff {s : State} {i : Instr} (hi : Fetches s i) (j : Instr) : Fetches s j ↔ i = j :=
  ⟨fun hj => (hi.unique hj).symm, fun e => e ▸ hi⟩

/-- Of a fetch three things can come: nothing, an unknown word, an instruction (R83 to R87). -/
theorem fetch_cases (s : State) :
    fetch s = none ∨ (∃ iw, fetch s = some iw ∧ decodeWord iw = .error (.unknownOpcode iw)) ∨ ∃ i, Fetches s i := by
  cases hfetch : fetch s with
  | none => exact .inl rfl
  | some iw =>
    obtain ⟨i, hdecode⟩ | hdecode := decodeWord_ok_or_unknown iw
    · exact .inr (.inr ⟨i, iw, hfetch, hdecode⟩)
    · exact .inr (.inl ⟨iw, rfl, hdecode⟩)

/-- Where a step in Running leads follows from its status alone (R89). -/
theorem Answers.transition {s t : State} {c : Status} (h : Answers s t c) :
    (t.run = .awaitKey ↔ t.status = .awaitingKey) ∧ (t.run = .halted ↔ t.status.isHaltCause = true) ∧
    (t.run = .halted → t.haltCause = t.status) ∧ (t.run ≠ .halted → t.haltCause = s.haltCause) := by
  obtain ⟨hstatus, hrun, hcause⟩ := h
  rw [hstatus, hrun, hcause]
  cases c <;> simp [Status.leadsTo, Status.isHaltCause]

/-- The rows of R89 for a step that fetches an instruction: the event is looked up after the advance of `pc`, which moves
neither the depth nor `I`. -/
theorem eventOf_advance_begun {s : State} {i : Instr} (keys : Word) (rand : Byte) (hfetches : Fetches s i) :
    let c := eventOf (advance (begun keys rand s)) i
    (c = .awaitingKey ↔ ∃ x, Fetches s (.ldVxK x)) ∧ (c = .halt ↔ Fetches s .halt) ∧
    (c = .infiniteLoop ↔ ∃ nnn : Addr, Fetches s (.jp nnn) ∧ nnn.toNat = s.pc.toNat) ∧
    (c = .stackOverflow ↔ s.sp.val = 16 ∧ ∃ nnn, Fetches s (.call nnn)) ∧
    (c = .stackUnderflow ↔ s.sp.val = 0 ∧ Fetches s .ret) ∧
    (c = .outOfBoundsAccess ↔ ∃ j, Fetches s j ∧ OutOfRange s j) := by
  have hiff := fetches_iff hfetches
  obtain ⟨iw, hfetch, -⟩ := hfetches
  have hpc : (advance (begun keys rand s)).pc.toNat = s.pc.toNat + 2 := toNat_pc_advance (s := begun keys rand s) hfetch
  simp only [hiff, eventOf_eq_awaitingKey_iff, eventOf_eq_halt_iff, eventOf_eq_infiniteLoop_iff,
    eventOf_eq_stackOverflow_iff, eventOf_eq_stackUnderflow_iff, eventOf_eq_outOfBoundsAccess_iff, hpc,
    Nat.add_right_cancel_iff, exists_eq_left', true_and]
  exact ⟨Iff.rfl, Iff.rfl, Iff.rfl⟩

theorem answers_of_fetches {s t : State} {i : Instr} {keys : Word} {rand : Byte} (hrun : s.run = .running)
    (hfetches : Fetches s i) (h : instructionCycle keys rand s = .next t) :
    Answers s t (eventOf (advance (begun keys rand s)) i) := by
  rw [instructionCycle_of_fetches keys rand hrun hfetches] at h
  obtain ⟨hstatus, hrun', hcause⟩ := exec_answers (s := advance (begun keys rand s)) hrun rfl h
  exact ⟨hstatus, hrun', hcause⟩

/-- Settles O11: Halted and AwaitKey have one cycle each; in Running the failed fetch and the unknown word are no
instruction's events, and an instruction's event is its status. -/
theorem statusAndRunStateFollowTransitionTable : Obligations.StatusAndRunStateFollowTransitionTable := by
  intro s t keys rand h
  refine ⟨fun hrun => ?halted, fun hrun => ?awaitKey, fun hrun => ?running⟩
  case halted =>
    cases (instructionCycle_of_halted keys rand hrun).symm.trans h
    exact ⟨hrun, rfl, rfl⟩
  case awaitKey =>
    cases (instructionCycle_of_awaitKey keys rand hrun).symm.trans h
    have hdown {k : Nat} (hk : k < 16) := getLsbD_wentDown (keys := keys) (keyPrev := s.keyPrev) hk
    cases hkey : lowestKey (keys &&& ~~~s.keyPrev) with
    | none =>
      rw [awaitStep_of_no_key (s := begun keys rand s) hkey]
      refine ⟨rfl, .inr ⟨hrun, rfl, fun k hk hk' => ?_⟩⟩
      have := lowestKey_none.1 hkey k hk
      rwa [hdown hk, hk', Bool.true_and, Bool.not_eq_false'] at this
    | some k =>
      rw [awaitStep_of_key (s := begun keys rand s) hkey]
      have := (lowestKey_some hkey).1
      rw [hdown k.isLt, Bool.and_eq_true, Bool.not_eq_true'] at this
      exact ⟨rfl, .inl ⟨rfl, rfl, k.toNat, k.isLt, this⟩⟩
  case running =>
    obtain hfetch | ⟨iw, hfetch, hdecode⟩ | ⟨i, hfetches⟩ := fetch_cases s
    · have hno (j : Instr) : ¬Fetches s j := fun ⟨iw, hj, _⟩ => by simp [hfetch] at hj
      have hanswers : Answers s t .outOfBoundsFetch := by
        cases (instructionCycle_of_fetch_none keys rand hrun hfetch).symm.trans h
        exact answers_raise _ rfl
      simpa [hanswers.status_eq, hno, hfetch] using hanswers.transition
    · have hno (j : Instr) : ¬Fetches s j := fun ⟨iw', hj, hj'⟩ => by simp_all
      have hanswers : Answers s t .unknownOpcode := by
        cases (instructionCycle_of_unknown keys rand hrun hfetch hdecode).symm.trans h
        exact ⟨rfl, hrun, rfl⟩
      simpa [hanswers.status_eq, hno, hfetch, hdecode] using hanswers.transition
    · have hanswers := answers_of_fetches hrun hfetches h
      obtain ⟨hawait, hhalt, hloop, hover, hunder, haccess⟩ := eventOf_advance_begun keys rand hfetches
      rw [← hanswers.status_eq] at hawait hhalt hloop hover hunder haccess
      have hne {c : Status} (hc) : t.status ≠ c := hanswers.status_eq ▸ eventOf_ne (c := c) hc
      obtain ⟨iw, hfetch, hdecode⟩ := hfetches
      exact ⟨iff_of_false (hne (by simp)) (by simp [hfetch]), iff_of_false (hne (by simp)) (by simp [hfetch, hdecode]),
        hawait, hhalt, hloop, hover, hunder, haccess, hne (by simp), hne (by simp), hanswers.transition⟩

/-! ## Precise faults (R208) -/

/-- An instruction that ends in a fault writes only the halt. -/
theorem exec_fault_onlyChanges {i : Instr} {s t : State} (h : exec i s = .next t)
    (hfault : eventOf s i = .stackOverflow ∨ eventOf s i = .stackUnderflow ∨ eventOf s i = .outOfBoundsAccess) :
    OnlyChanges s t {.run, .haltCause, .status, .report} := by
  rw [eventOf_eq_stackOverflow_iff, eventOf_eq_stackUnderflow_iff, eventOf_eq_outOfBoundsAccess_iff] at hfault
  obtain ⟨hfull, nnn, rfl⟩ | ⟨hempty, rfl⟩ | hout := hfault
  · cases (exec_call_of_full nnn hfull).symm.trans h
    exact haltEntry_onlyChanges_haltParts _ s
  · cases (exec_ret_of_empty hempty).symm.trans h
    exact haltEntry_onlyChanges_haltParts _ s
  · obtain ⟨u, hu, -, -, -, -, hframe⟩ := outOfRangeAccessHaltsUndone s i hout
    cases hu.symm.trans h
    exact hframe

/-- Settles O12: the frame is that of the halt entry alone after a failed fetch, and after the advance for the other
three faults, none of which an instruction's cause can take for the first. -/
theorem faultsAreHaltedPrecisely : Obligations.FaultsAreHaltedPrecisely := by
  rintro s t keys rand hrun h ⟨hhalted, hcause⟩
  obtain hfetch | ⟨iw, hfetch, hdecode⟩ | ⟨i, hfetches⟩ := fetch_cases s
  · cases (instructionCycle_of_fetch_none keys rand hrun hfetch).symm.trans h
    have hframe := (beginStep_sampleInputs_onlyChanges keys rand s).comp
      (raise_onlyChanges .outOfBoundsFetch (.fetchAddress s.pc) _)
    exact ⟨hframe.mono (by simp), rfl, fun _ => rfl, fun hne => absurd rfl hne⟩
  · cases (instructionCycle_of_unknown keys rand hrun hfetch hdecode).symm.trans h
    exact absurd (hrun.symm.trans hhalted) (by simp)
  · have hanswers := answers_of_fetches hrun hfetches h
    obtain ⟨-, -, hcause_eq, -⟩ := hanswers.transition
    have hevent : t.haltCause = eventOf (advance (begun keys rand s)) i := (hcause_eq hhalted).trans hanswers.status_eq
    have hfetched : t.haltCause ≠ .outOfBoundsFetch := hevent ▸ eventOf_ne (by simp)
    rw [instructionCycle_of_fetches keys rand hrun hfetches] at h
    have hfault := exec_fault_onlyChanges h (hevent ▸ hcause.resolve_left hfetched)
    refine ⟨((advance_begun_onlyChanges keys rand s).comp hfault).mono (by simp [Set.insert_subset_iff]),
      hfault .displayDirty (by simp), fun hc => absurd hc hfetched, fun _ => hfault .pc (by simp)⟩

end Sys2Proof.Machine
end

section
/-! PROOFS. The host's actions and runs (60_exceptions.md, 70_reset_and_hazards.md, R9, R92, R202, R211, R214, R230). -/

namespace Sys2Proof.Machine

/-! ## One step -/

theorem step_of_unlisted {s : State} (h : s.hostActions = []) :
    step s = perform (Config.freeAction s.actionIndex) { s with actionIndex := s.actionIndex + 1 } := by
  rw [step, performNext, nextAction_unlisted h]

/-- Settles O58: performing an action is the cycle, the tick or the reset by its constructor. -/
theorem stepPerformsTheNextHostAction : Obligations.StepPerformsTheNextHostAction := fun _ =>
  ⟨fun _ _ _ h => step_of_listed h, fun _ h => step_of_listed h, fun _ _ h => step_of_listed h, step_of_unlisted⟩

/-- Settles O15: the reset's own two outcomes. -/
theorem resetFailsExactlyOnTooLongProgram : Obligations.ResetFailsExactlyOnTooLongProgram := by
  intro s a rest h
  rw [step_of_listed h]
  obtain ⟨hfits, hreset⟩ | ⟨hlong, hreset⟩ := hostReset_cases a { s with hostActions := rest }
  · exact ⟨fun hlong => absurd hfits (Nat.not_le.2 hlong), fun _ => ⟨_, hreset⟩⟩
  · exact ⟨fun _ => hreset, fun hfits => absurd hfits (Nat.not_le.2 hlong)⟩

/-- Settles O19: an action fails only as a reset that is too long, and the action is the listed or the free one. -/
theorem stepAnswersUnlessLoadError : Obligations.StepAnswersUnlessLoadError := by
  intro s
  obtain hnext | ⟨hfault, a, ha, hlong⟩ := perform_cases (nextAction s).1 (nextAction s).2
  · exact .inl hnext
  · refine .inr ⟨hfault, a, hlong, ?_⟩
    cases hlist : s.hostActions with
    | nil => rw [nextAction_unlisted hlist] at ha; exact .inr ⟨rfl, ha⟩
    | cons b rest =>
      rw [nextAction_listed hlist] at ha
      exact .inl ⟨rest, by rw [show b = .reset a from ha]⟩

/-! ## Runs -/

theorem run_succ_of_next {s t : State} (n : Nat) (h : step s = .next t) :
    Host.Core.run Sys2Proof.core (n + 1) s = Host.Core.run Sys2Proof.core n t := by
  simp only [Host.Core.run, show Sys2Proof.core.step s = .next t from h]

theorem run_succ_of_fault {s : State} {r : Fault} (n : Nat) (h : step s = .fault r) :
    Host.Core.run Sys2Proof.core (n + 1) s = .fault r := by
  simp only [Host.Core.run, show Sys2Proof.core.step s = .fault r from h]

theorem performAll_cons_of_next {a : HostAction} {l : List HostAction} {s t : State} (h : perform a s = .next t) :
    performAll (a :: l) s = performAll l t := by simp only [performAll, h]

theorem performAll_cons_of_fault {a : HostAction} {l : List HostAction} {s : State} {r : Fault}
    (h : perform a s = .fault r) : performAll (a :: l) s = .fault r := by simp only [performAll, h]

/-- A run of one step more is the action of that step and then the actions of the rest, since no action looks at the host
fields: the step performs `a` with the fields `l'`, `k'` left, the list of actions with any others. -/
theorem run_succ_eq_performAll {a : HostAction} {l l' m : List HostAction} {k k' k'' n : Nat} {acts : List HostAction}
    {s : State} (hstep : step (s.withHost l k) = perform a (s.withHost l' k'))
    (hrest : ∀ t : State, Host.Core.run Sys2Proof.core n (t.withHost l' k') = performAll acts (t.withHost m k'')) :
    Host.Core.run Sys2Proof.core (n + 1) (s.withHost l k) = performAll (a :: acts) (s.withHost m k'') := by
  obtain ⟨t, h⟩ | ⟨h, -⟩ := perform_cases a s
  · have hhost (l k) : perform a (s.withHost l k) = .next (t.withHost l k) := by rw [perform_withHost, h]; rfl
    rw [run_succ_of_next n (hstep.trans (hhost ..)), performAll_cons_of_next (hhost ..), hrest]
  · have hhost (l k) : perform a (s.withHost l k) = .fault .loadError := by rw [perform_withHost, h]; rfl
    exact (run_succ_of_fault n (hstep.trans (hhost ..))).trans (performAll_cons_of_fault (hhost ..)).symm

/-- A run no longer than the list performs the listed actions. -/
theorem run_listed (l rest : List HostAction) (k : Nat) (s : State) :
    Host.Core.run Sys2Proof.core l.length (s.withHost (l ++ rest) k) = performAll l (s.withHost rest k) := by
  induction l generalizing s with
  | nil => rfl
  | cons a l ih => exact run_succ_eq_performAll (step_of_listed rfl) ih

/-- With nothing listed a run performs the free actions, from the one whose turn it is. -/
theorem run_unlisted (n k : Nat) (s : State) :
    Host.Core.run Sys2Proof.core n (s.withHost [] k) =
      performAll ((List.range n).map fun j => Config.freeAction (k + j)) (s.withHost [] (k + n)) := by
  induction n generalizing k s with
  | zero => rfl
  | succ n ih =>
    rw [List.range_succ_eq_map, List.map_cons, List.map_map]
    refine run_succ_eq_performAll (l' := []) (k' := k + 1) (step_of_unlisted rfl) fun t => ?_
    rw [ih (k + 1) t, Nat.add_assoc, Nat.add_comm 1 n]
    refine congrArg (performAll · _) (List.map_congr_left fun j _ => congrArg Config.freeAction ?_)
    simp only [Nat.succ_eq_add_one]; omega

/-- Settles O59, by induction on the list: each listed action in its turn, then the free ones. -/
theorem runIsTheListedThenTheFreeActions : Obligations.RunIsTheListedThenTheFreeActions := by
  have hrun (n k : Nat) (l : List HostAction) (s : State) :
      Host.Core.run Sys2Proof.core (l.length + n) (s.withHost l k) =
        performAll (l ++ (List.range n).map fun j => Config.freeAction (k + j)) (s.withHost [] (k + n)) := by
    induction l generalizing s with
    | nil => rw [List.length_nil, Nat.zero_add]; exact run_unlisted n k s
    | cons a l ih =>
      rw [List.length_cons, Nat.add_right_comm]
      exact run_succ_eq_performAll (step_of_listed rfl) ih
  exact fun s n => hrun n s.actionIndex s.hostActions s

/-! ## Ticks and Halted -/

theorem tick_onlyChanges (s : State) : OnlyChanges s (tick s) {.delay, .sound} := by
  intro p hp
  cases p with
  | delay | sound => simp at hp
  | _ => rfl

theorem withHost_onlyChanges (l : List HostAction) (s : State) :
    OnlyChanges s (s.withHost l s.actionIndex) {.hostActions} := by
  intro p hp
  cases p with
  | hostActions => simp at hp
  | _ => rfl

theorem performAll_ticks (n : Nat) (s : State) :
    ∃ t, performAll (List.replicate n .tick) s = .next t ∧ t.dt.toNat = s.dt.toNat - n ∧ t.st.toNat = s.st.toNat - n ∧
      OnlyChanges s t {.delay, .sound} := by
  induction n generalizing s with
  | zero => exact ⟨s, rfl, rfl, rfl, fun p _ => by cases p <;> rfl⟩
  | succ n ih =>
    obtain ⟨t, ht, hdt, hst, hframe⟩ := ih (tick s)
    refine ⟨t, ht, ?_, ?_, (tick_onlyChanges s).trans hframe⟩
    · rw [hdt, tick_dt, toNat_countDown, Nat.sub_sub, Nat.add_comm]
    · rw [hst, tick_st, toNat_countDown, Nat.sub_sub, Nat.add_comm]

/-- Settles O13: the run performs the listed ticks, each of which takes 1. -/
theorem ticksCountTimersDown : Obligations.TicksCountTimersDown := by
  intro s n rest
  obtain ⟨t, ht, hdt, hst, hframe⟩ := performAll_ticks n (s.withHost rest s.actionIndex)
  have hrun := run_listed (List.replicate n .tick) rest s.actionIndex s
  rw [List.length_replicate] at hrun
  exact ⟨t, hrun.trans ht, hdt, hst, hframe .hostActions (by simp),
    ((withHost_onlyChanges rest s).comp hframe).mono (by simp)⟩

/-- What steps and ticks change of a halted core: the timers and the ports. -/
theorem performAll_halted (l : List HostAction) {s : State} (hrun : s.run = .halted) (hl : ∀ a, HostAction.reset a ∉ l) :
    ∃ t, performAll l s = .next t ∧ t.run = .halted ∧
      OnlyChanges s t {.delay, .sound, .status, .displayDirty, .report, .keys, .rand} := by
  induction l generalizing s with
  | nil => exact ⟨s, rfl, hrun, fun p _ => by cases p <;> rfl⟩
  | cons a l ih =>
    obtain ⟨t, ht, hhalted, hframe⟩ : ∃ t, perform a s = .next t ∧ t.run = .halted ∧
        OnlyChanges s t {.delay, .sound, .status, .displayDirty, .report, .keys, .rand} := by
      cases a with
      | step keys rand =>
        obtain ⟨t, ht, hhalted, -, hframe⟩ := haltedStepIsNoOp s keys rand hrun
        exact ⟨t, ht, hhalted, hframe.mono (by simp [Set.insert_subset_iff])⟩
      | tick => exact ⟨_, rfl, hrun, (tick_onlyChanges s).mono (by simp [Set.insert_subset_iff])⟩
      | reset args => exact absurd (.head _) (hl args)
    obtain ⟨u, hu, hhalted', hframe'⟩ := ih hhalted fun a ha => hl a (.tail _ ha)
    exact ⟨u, (performAll_cons_of_next ht).trans hu, hhalted', hframe.trans hframe'⟩

/-- Settles O20: the run performs the listed steps and ticks, none of which wakes a halted core. -/
theorem haltedIsTerminalUntilReset : Obligations.HaltedIsTerminalUntilReset := by
  intro s l rest hrun hl
  obtain ⟨t, ht, hhalted, hframe⟩ := performAll_halted l (s := s.withHost rest s.actionIndex) hrun hl
  exact ⟨t, (run_listed l rest s.actionIndex s).trans ht, hhalted,
    ((withHost_onlyChanges rest s).comp hframe).mono (by simp)⟩

/-! ## Reset -/

theorem reg_reset (r : Nibble) : State.reset.reg r = 0x00#8 := Vector.getElem_replicate _

theorem stack_reset {k : Nat} (hk : k < 16) : State.reset.stack[k]? = some 0x0000#16 := by
  rw [Vector.getElem?_eq_getElem (by exact hk)]
  exact congrArg some (Vector.getElem_replicate _)

/-- Settles O16: the registers, the stack and the display are constant, every other field is a literal. -/
theorem resetStateValues : Obligations.ResetStateValues :=
  ⟨reg_reset, rfl, rfl, rfl, fun _ hk => stack_reset hk, rfl, rfl, cellAt_blankDisplay, rfl, rfl, rfl, rfl, rfl,
    fun _ => rfl, rfl, rfl, rfl, rfl⟩

/-- `MEM_INIT` and the font over it are in canonical form before the program is written. -/
theorem fontImage_wf (a : ResetArgs) :
    ((Memory.storeCells [] a.memInit).storeBytes Config.fontBase a.font.toList).wf = true :=
  Memory.storeBytes_wf (by rw [Vector.length_toList]; decide) (Memory.storeCells_wf rfl)

theorem read_resetImage_program {a : ResetArgs} (hlen : a.program.length ≤ 3584) {k : Nat} (hk : k < a.program.length) :
    (resetImage a).read (0x200 + k) = a.program[k] :=
  Memory.read_storeBytes_inside (by simp only [Config.progBase, Config.memSize]; omega) (fontImage_wf a) hk

/-- The font lies below the program. -/
theorem read_resetImage_font {a : ResetArgs} {k : Nat} (hk : k < 80) :
    (resetImage a).read (0x050 + k) = a.font[k]'hk := by
  have hfont : k < a.font.toList.length := by rw [Vector.length_toList]; exact hk
  have hroom : Config.fontBase + a.font.toList.length ≤ Config.memSize := by rw [Vector.length_toList]; decide
  have hbelow : 0x050 + k < Config.progBase := by simp only [Config.progBase]; omega
  calc (resetImage a).read (0x050 + k)
    _ = ((Memory.storeCells [] a.memInit).storeBytes Config.fontBase a.font.toList).read (0x050 + k) :=
        Memory.read_storeBytes_outside (.inl hbelow)
    _ = a.font.toList[k] := Memory.read_storeBytes_inside hroom (Memory.storeCells_wf rfl) hfont
    _ = a.font[k]'hk := Vector.getElem_toList hfont

/-- Outside the font and the program the image is `MEM_INIT` over 0x00. -/
theorem read_resetImage_rest {a : ResetArgs} {b : Nat} (hfont : ¬(0x050 ≤ b ∧ b < 0x0A0))
    (hprogram : ¬(0x200 ≤ b ∧ b < 0x200 + a.program.length)) :
    (resetImage a).read b = (Memory.storeCells [] a.memInit).read b := by
  have hlen : a.font.toList.length = 80 := Vector.length_toList
  rw [resetImage, Memory.read_storeBytes_outside (by simp only [Config.progBase]; omega),
    Memory.read_storeBytes_outside (by simp only [Config.fontBase]; omega)]

/-- Settles O14: every field but memory is that of the reset state or the given one; memory is the image, region by region. -/
theorem hostResetBuildsTheResetState : Obligations.HostResetBuildsTheResetState := by
  intro s a rest hlist hlen
  have hstep : step s = .next (construct a { s with hostActions := rest }) := by
    rw [step_of_listed hlist]
    exact if_pos (decide_eq_true hlen)
  refine ⟨_, hstep, reg_reset, rfl, rfl, rfl, fun _ hk => stack_reset hk, rfl, rfl, cellAt_blankDisplay, rfl, rfl, rfl, rfl,
    rfl, fun k hk => read_resetImage_font hk, fun k hk => read_resetImage_program hlen hk,
    fun b hb hfont hprogram => ⟨fun before v after hinit hlast => ?_, fun hnone => ?_⟩,
    fun b hb => Memory.read_outside (resetImage_wf (decide_eq_true hlen)) hb, rfl⟩
  · refine (read_resetImage_rest hfont hprogram).trans ?_
    rw [hinit, Memory.read_storeCells_last rfl hb hlast]
  · refine (read_resetImage_rest hfont hprogram).trans ?_
    rw [Memory.read_storeCells_unnamed hnone]
    rfl

end Sys2Proof.Machine
end
